-- ==== Sys2Proof/Word.lean ====
section
/-! DEFINITION. The words of CA-CORE and their plainest arithmetic (spec/00_scope.md R7, R10). -/

namespace Sys2Proof

/-- An 8-bit unsigned value: a register, a memory cell, an opcode or an operand (R7, R20, R50). -/
abbrev Byte := BitVec 8

/-- A 9-bit unsigned value: the program counter and the addresses a fault record holds (R26, R31). -/
abbrev PcWord := BitVec 9

/-- `trunc8(v)` of R10: the value modulo 256, as a byte. -/
def trunc8 (v : Nat) : Byte := BitVec.ofNat 8 v

/-- `zext_9(v)` of R10: a byte zero-extended to the width of the program counter. -/
def zext9 (v : Byte) : PcWord := v.setWidth 9

end Sys2Proof
end

