-- ==== Sys2Proof/Config.lean ====
section
/-! DEFINITION. What an implementation of CA-CORE fixes: the opcode map parameter and the sizes (spec/00_scope.md R7, R8). -/

namespace Sys2Proof

/-- `OPCODE_MAP` (R8): the opcode byte of each of the ten instructions.
It is the one parameter of the block; Decode.lean holds the default of R85 and the constraints of R84. -/
structure OpcodeMap where
  hlt  : Byte
  ldi  : Byte
  prn  : Byte
  push : Byte
  pop  : Byte
  call : Byte
  ret  : Byte
  add  : Byte
  sub  : Byte
  mul  : Byte
  deriving DecidableEq, Repr

/-- The memory has 256 cells, addresses 0..255 (R7, R50). -/
def memSize : Nat := 256

/-- The longest instruction: an opcode byte and two operand bytes (R7, R80). -/
def maxInstrBytes : Nat := 3

end Sys2Proof
end

