-- ==== Sys2Proof/Machine/State.lean ====
section
/-! DEFINITION. The state of CA-CORE (spec/10_state.md), its fault causes, and the state after reset (spec/70_reset_and_hazards.md R240). -/

namespace Sys2Proof.Machine

/-- `STATUS` (R30). Its fourth code, 3, is never held, so it has no constructor. -/
inductive Status where
  | running
  | halted
  | faulted
  deriving DecidableEq, Repr

/-- `FAULT_KIND` (R31, R211). Codes 5..7 are never held, so they have no constructor. -/
inductive FaultKind where
  | none
  | unrecognizedOpcode
  | unsupportedAluOperation
  | outOfRangeAddress
  | registerIndexOutOfRange
  deriving DecidableEq, Repr

/-- What a step raises: `raise <Kind>(info)` of R10, with the kinds of R211. Raising is no stop of the model: the step
takes the fault and answers a next state, STATUS = FAULTED (R215). -/
inductive FaultCause where
  | unrecognizedOpcode
  | unsupportedAluOperation
  | outOfRangeAddress (addr : Nat)
  | registerIndexOutOfRange (index : Byte)
  deriving DecidableEq, Repr

/-- The memory as the cells that differ from what an untouched cell reads as, addresses strictly rising. -/
abbrev Memory := List Host.Cell

/-- Everything the spec gives the machine. -/
structure State where
  /-- `x[0]` .. `x[7]`; `x[7]` is `SP` (R20, R21). -/
  regs : Vector Byte 8
  /-- `pc` (R25, R26). -/
  pc : PcWord
  /-- `STATUS` (R30). -/
  status : Status
  /-- `FAULT_KIND` (R31). -/
  faultKind : FaultKind
  /-- `FAULT_PC` (R31). -/
  faultPc : PcWord
  /-- `FAULT_IR_VALID` (R31). -/
  faultIrValid : Bool
  /-- `FAULT_IR` (R31). -/
  faultIr : Byte
  /-- `FAULT_INFO` (R31). -/
  faultInfo : BitVec 9
  /-- `Out`, oldest byte first (R32). -/
  out : List Byte
  /-- The memory (R33). -/
  mem : Memory
  /-- `IR`, transient (R34). -/
  ir : Byte
  /-- `A`, transient (R35). -/
  opA : Byte
  /-- `B`, transient (R35). -/
  opB : Byte
  /-- `BT`, transient (R36). -/
  bt : Byte
  /-- The image load port may still be used: no step has been taken since reset (R41). -/
  loadOpen : Bool
  deriving DecidableEq, Repr

/-- How the model stops with a fault. No step and no instruction does: every fault of the spec is taken as a next state
(notes/assumptions/5.md). -/
inductive Fault where
  /-- Raised by `loadImage` only: the load port is used after the first step, to which R41 gives no effect. Safe. -/
  | loadPortClosed
  deriving DecidableEq, Repr

/-- What the model gives no meaning to. -/
inductive Refusal where
  /-- Raised by an arm of `exec` whose instruction has no meaning yet; no arm is one. Safe. -/
  | notModelled (mnemonic : String)
  /-- Raised by `loadImage` only: an image of more than 256 bytes, a loader failure that never reaches the core (R41). Safe. -/
  | imageTooLong
  deriving DecidableEq, Repr

/-- The machine right after reset (R240). `ir`, `opA`, `opB` and `bt` have no observable value: 0 is a DESIGN CHOICE
(notes/assumptions/3.md). -/
def State.reset : State where
  regs := #v[0, 0, 0, 0, 0, 0, 0, 0xF4]
  pc := 0
  status := .running
  faultKind := .none
  faultPc := 0
  faultIrValid := false
  faultIr := 0
  faultInfo := 0
  out := []
  mem := []
  ir := 0
  opA := 0
  opB := 0
  bt := 0
  loadOpen := true

end Sys2Proof.Machine
end

