-- ==== Sys2Proof/Machine/Ops.lean ====
section
/-! DEFINITION. The named operations over memory, registers, the program counter and the fault record. -/

namespace Sys2Proof.Machine

/-! ## The memory as data -/

/-- What a cell that nothing has written reads as: 0 (spec/20_memory.md R61, R67). -/
def Memory.unlisted : Byte := 0

/-- The value of the cell at an address. -/
def Memory.lookup : Memory → Nat → Byte
  | [], _ => Memory.unlisted
  | (k, w) :: rest, addr => if k = addr then w else Memory.lookup rest addr

/-- A cell in front of a list, left out when it holds what an unlisted cell reads as. -/
def Memory.consCell (addr : Nat) (v : Byte) (rest : Memory) : Memory :=
  if v = Memory.unlisted then rest else (addr, v) :: rest

/-- The memory with one cell set, in canonical form again. -/
def Memory.store : Memory → Nat → Byte → Memory
  | [], addr, v => Memory.consCell addr v []
  | (k, w) :: rest, addr, v =>
    if addr < k then Memory.consCell addr v ((k, w) :: rest)
    else if addr = k then Memory.consCell addr v rest
    else (k, w) :: Memory.store rest addr v

/-- Addresses strictly rising from `lo` on, all inside the memory, no cell listed that reads as an unlisted one. -/
def Memory.wfFrom : Nat → Memory → Bool
  | _, [] => true
  | lo, (k, w) :: rest =>
    decide (lo ≤ k) && decide (k < memSize) && decide (w ≠ Memory.unlisted) && Memory.wfFrom (k + 1) rest

/-- The canonical form of a memory. -/
def Memory.wf (mem : Memory) : Bool := Memory.wfFrom 0 mem

/-- Consecutive cells set, from an address upwards. -/
def Memory.storeBytes : Memory → Nat → List Byte → Memory
  | mem, _, [] => mem
  | mem, addr, v :: vs => Memory.storeBytes (mem.store addr v) (addr + 1) vs

/-! ## Memory accesses -/

/-- The cell at an address, as the observation port reads it (R43). -/
def State.cell (s : State) (addr : Nat) : Byte := s.mem.lookup addr

/-- `MemRead(addr, 1)` (spec/20_memory.md R51). -/
def memRead (addr : Nat) (s : State) : Except FaultCause Byte :=
  if addr < memSize then .ok (s.cell addr) else .error (.outOfRangeAddress addr)

/-- `MemWrite(addr, 1, v)` (spec/20_memory.md R51). -/
def memWrite (addr : Nat) (v : Byte) (s : State) : Except FaultCause State :=
  if addr < memSize then .ok { s with mem := s.mem.store addr v } else .error (.outOfRangeAddress addr)

/-! ## Registers -/

/-- Register 7 is the stack pointer (spec/10_state.md R21). -/
def sp : Fin 8 := 7

/-- Read of a general register (R10). -/
def State.reg (s : State) (r : Fin 8) : Byte := s.regs[r.val]

/-- Write of a general register (R10, R22). -/
def State.setReg (r : Fin 8) (v : Byte) (s : State) : State :=
  { s with regs := s.regs.set r.val v r.isLt }

/-! ## The stack pointer (spec/20_memory.md R59) -/

/-- `SP -= 1`, modulo 256. -/
def spDec (v : Byte) : Byte := trunc8 (v.toNat + 255)

/-- `SP += 1`, modulo 256. -/
def spInc (v : Byte) : Byte := trunc8 (v.toNat + 1)

/-- The address a push or a call at `s` stores to: SP after the decrement. -/
def pushSlot (s : State) : Nat := (spDec (s.reg sp)).toNat

/-- The state after a push or a call has decremented SP. -/
def pushSp (s : State) : State := s.setReg sp (spDec (s.reg sp))

/-! ## The program counter (spec/40_sequencer.md R118) -/

/-- The PC incrementer, for an instruction with n operand bytes (R37). -/
def advancePc (n : Nat) (s : State) : State := { s with pc := s.pc + BitVec.ofNat 9 (n + 1) }

/-- The branch target is written to BT and copied into pc (R36, R118). -/
def branchTo (target : Byte) (s : State) : State := { s with bt := target, pc := zext9 target }

/-! ## Codes and contents of the run status and the fault record -/

/-- The codes of STATUS (spec/10_state.md R30). -/
def Status.code : Status → BitVec 2
  | .running => 0
  | .halted => 1
  | .faulted => 2

/-- The codes of FAULT_KIND (R31, R211). -/
def FaultKind.code : FaultKind → BitVec 3
  | .none => 0
  | .unrecognizedOpcode => 1
  | .unsupportedAluOperation => 2
  | .outOfRangeAddress => 3
  | .registerIndexOutOfRange => 4

/-- FAULT_KIND of a cause (R211). -/
def FaultCause.kind : FaultCause → FaultKind
  | .unrecognizedOpcode => .unrecognizedOpcode
  | .unsupportedAluOperation => .unsupportedAluOperation
  | .outOfRangeAddress _ => .outOfRangeAddress
  | .registerIndexOutOfRange _ => .registerIndexOutOfRange

/-- FAULT_INFO of a cause (R31, R211). -/
def FaultCause.info : FaultCause → BitVec 9
  | .unrecognizedOpcode => 0
  | .unsupportedAluOperation => 0
  | .outOfRangeAddress addr => BitVec.ofNat 9 addr
  | .registerIndexOutOfRange index => index.setWidth 9

/-! ## Taking a fault (spec/60_exceptions.md R215, R216)

There is no handler, no vector and no return (R210, R219, R220): a fault writes STATUS and the fault record and nothing
else, and only reset leaves it (R242). -/

/-- The state in which a step that raises `c` ends. `fetched` says whether the opcode byte was fetched, so that IR holds it. -/
def takeFault (fetched : Bool) (c : FaultCause) (s : State) : State :=
  { s with
    status := .faulted
    faultKind := c.kind
    faultPc := s.pc
    faultIrValid := fetched
    faultIr := if fetched then s.ir else 0
    faultInfo := c.info }

/-- The end of an instruction that ran at `s`: its result, or the fault it raised, taken at `s` itself, so that nothing the
instruction wrote before the raise survives (R10, R216, R217). -/
def complete (s : State) (result : Except FaultCause State) : Host.Outcome State Fault Refusal :=
  match result with
  | .ok t => .next t
  | .error c => .next (takeFault true c s)

end Sys2Proof.Machine
end

