-- ==== Sys2Proof/Machine/Operands.lean ====
section
/-! DEFINITION. The operand forms of CA-CORE (spec/30_encoding.md R83): a register index, and the one-byte return address
that CALL makes. LDI's immediate is the operand byte itself. -/

namespace Sys2Proof.Machine

/-- A register operand: 0..7 name a register, 8..255 raise RegisterIndexOutOfRange (spec/10_state.md R23). -/
def regOperand (b : Byte) : Except FaultCause (Fin 8) :=
  if h : b.toNat < 8 then .ok ⟨b.toNat, h⟩ else .error (.registerIndexOutOfRange b)

/-- CALL's return address p + 2, which must be an address and fit a byte (spec/43_stack_and_call.md R182). -/
def returnAddress (s : State) : Except FaultCause Byte :=
  if s.pc.toNat + 2 > 0xFF then .error (.outOfRangeAddress (s.pc.toNat + 2)) else .ok (trunc8 (s.pc.toNat + 2))

end Sys2Proof.Machine
end

