-- ==== Sys2Proof/Machine/Flags.lean ====
section
/-! DEFINITION. What the ALU computes (spec/41_alu.md). CA-CORE has no flag register and no condition code: carry, overflow,
zero and sign are kept nowhere (spec/10_state.md R28), so the results below are all the ALU gives. -/

namespace Sys2Proof.Machine

/-- `trunc8(x[A] + x[B])` (R142). -/
def aluAdd (x y : Byte) : Byte := trunc8 (x.toNat + y.toNat)

/-- `trunc8(x[A] + 256 - x[B])` (R143). -/
def aluSub (x y : Byte) : Byte := trunc8 (x.toNat + 256 - y.toNat)

/-- `trunc8(x[A] * x[B])` (R144). -/
def aluMul (x y : Byte) : Byte := trunc8 (x.toNat * y.toNat)

/-- The ALU's contract (R140): A is checked before B, both registers are read before x[A] is written, nothing else is
written, and the PC moves past the two operand bytes. -/
def aluOp (f : Byte → Byte → Byte) (a b : Byte) (s : State) : Except FaultCause State := do
  let ra ← regOperand a
  let rb ← regOperand b
  return advancePc 2 (s.setReg ra (f (s.reg ra) (s.reg rb)))

end Sys2Proof.Machine
end

