-- ==== Sys2Proof/Machine/Alu.lean ====
section
/-! DEFINITION. The ALU instructions ADD, SUB and MUL (spec/41_alu.md). -/

namespace Sys2Proof.Machine

/-- ADD (R142). -/
def execAdd (a b : Byte) (s : State) : Host.Outcome State Fault Refusal :=
  complete s (aluOp aluAdd a b s)

/-- SUB (R143). -/
def execSub (a b : Byte) (s : State) : Host.Outcome State Fault Refusal :=
  complete s (aluOp aluSub a b s)

/-- MUL (R144). -/
def execMul (a b : Byte) (s : State) : Host.Outcome State Fault Refusal :=
  complete s (aluOp aluMul a b s)

end Sys2Proof.Machine
end

