-- ==== Sys2Proof/Machine/RegisterIo.lean ====
section
/-! DEFINITION. The named instructions HLT, LDI and PRN (spec/42_register_and_io.md). -/

namespace Sys2Proof.Machine

/-- HLT (R160): the PC moves on, then STATUS becomes HALTED (R119). -/
def execHlt (s : State) : Host.Outcome State Fault Refusal :=
  complete s (.ok { advancePc 0 s with status := .halted })

/-- LDI (R161). -/
def execLdi (a imm : Byte) (s : State) : Host.Outcome State Fault Refusal :=
  complete s do
    let ra ← regOperand a
    return advancePc 2 (s.setReg ra imm)

/-- PRN (R162). -/
def execPrn (a : Byte) (s : State) : Host.Outcome State Fault Refusal :=
  complete s do
    let ra ← regOperand a
    return advancePc 1 { s with out := s.out ++ [s.reg ra] }

end Sys2Proof.Machine
end

