-- ==== Sys2Proof/Machine/StackCall.lean ====
section
/-! DEFINITION. The stack and subroutine instructions PUSH, POP, CALL and RET (spec/43_stack_and_call.md). The statements of
each run in the order the spec writes them, each seeing the writes of those before it. -/

namespace Sys2Proof.Machine

/-- PUSH (R180): x[A] is read after SP is decremented. -/
def execPush (a : Byte) (s : State) : Host.Outcome State Fault Refusal :=
  complete s do
    let ra ← regOperand a
    let s₁ := pushSp s
    let s₂ ← memWrite (pushSlot s) (s₁.reg ra) s₁
    return advancePc 1 s₂

/-- POP (R181): SP is incremented after x[A] is written. -/
def execPop (a : Byte) (s : State) : Host.Outcome State Fault Refusal :=
  complete s do
    let ra ← regOperand a
    let v ← memRead (s.reg sp).toNat s
    let s₁ := s.setReg ra v
    return advancePc 1 (s₁.setReg sp (spInc (s₁.reg sp)))

/-- CALL (R182): the register is checked before the return address, and x[A] is read after SP is decremented. -/
def execCall (a : Byte) (s : State) : Host.Outcome State Fault Refusal :=
  complete s do
    let ra ← regOperand a
    let back ← returnAddress s
    let s₁ := pushSp s
    let s₂ ← memWrite (pushSlot s) back s₁
    return branchTo (s₂.reg ra) s₂

/-- RET (R183). -/
def execRet (s : State) : Host.Outcome State Fault Refusal :=
  complete s do
    let target ← memRead (s.reg sp).toNat s
    return branchTo target (s.setReg sp (spInc (s.reg sp)))

end Sys2Proof.Machine
end

