-- ==== Sys2Proof/Syntax.lean ====
section
/-! DEFINITION. The instructions of CA-CORE as syntax: one constructor per row of spec/opcode_table.json. -/

namespace Sys2Proof

/-- The ten instructions (spec/30_encoding.md R83, R85).
A register operand is kept as the operand BYTE: the decoder accepts every operand byte (R89), and a byte that names no
register raises its fault when the instruction executes (spec/10_state.md R23). -/
inductive Instr where
  /-- `HLT` (R160). -/
  | hlt
  /-- `LDI Ra, imm` (R161). -/
  | ldi (a imm : Byte)
  /-- `PRN Ra` (R162). -/
  | prn (a : Byte)
  /-- `PUSH Ra` (R180). -/
  | push (a : Byte)
  /-- `POP Ra` (R181). -/
  | pop (a : Byte)
  /-- `CALL Ra` (R182). -/
  | call (a : Byte)
  /-- `RET` (R183). -/
  | ret
  /-- `ADD Ra, Rb` (R142). -/
  | add (a b : Byte)
  /-- `SUB Ra, Rb` (R143). -/
  | sub (a b : Byte)
  /-- `MUL Ra, Rb` (R144). -/
  | mul (a b : Byte)
  deriving DecidableEq, Repr

end Sys2Proof
end

