-- ==== Sys2Proof/Decode.lean ====
section
/-! DEFINITION. The decoder of CA-CORE, total on any bytes, and the encoder (spec/30_encoding.md). -/

namespace Sys2Proof

/-! ## The fields of an opcode byte (R81) -/

/-- Bits 7:6, `operand_count`: how many bytes follow the opcode. -/
def operandCount (ir : Byte) : Nat := (ir.extractLsb' 6 2).toNat

/-- Bit 5, `is_alu_op`. -/
def isAluOp (ir : Byte) : Bool := ir.getLsbD 5

/-- Bit 4, `sets_pc`. -/
def setsPc (ir : Byte) : Bool := ir.getLsbD 4

/-- Bits 3:0, `identifier`. Nothing is looked up by it: the whole byte is the key of both tables (R82, R86). -/
def identifier (ir : Byte) : BitVec 4 := ir.extractLsb' 0 4

/-! ## The opcode map -/

/-- The default map (R8, R85). PRESUMED: all but `hlt`, `ldi` and `prn` are the spec's bytes from general knowledge
(notes/assumptions/1.md). -/
def OpcodeMap.defaultMap : OpcodeMap where
  hlt  := 0x01
  ldi  := 0x82
  prn  := 0x47
  push := 0x45
  pop  := 0x46
  call := 0x50
  ret  := 0x11
  add  := 0xA0
  sub  := 0xA1
  mul  := 0xA2

/-- The ten bytes of a map. -/
def OpcodeMap.bytes (m : OpcodeMap) : List Byte :=
  [m.hlt, m.ldi, m.prn, m.push, m.pop, m.call, m.ret, m.add, m.sub, m.mul]

/-- An opcode byte with the three fields R84 asks for. -/
abbrev HasFields (op : Byte) (n : Nat) (alu spc : Bool) : Prop :=
  operandCount op = n ∧ isAluOp op = alu ∧ setsPc op = spc

/-- The constraints on `OPCODE_MAP` (R84): the three fixed bytes, the fields of the other seven, all ten distinct.
That RET's count is at most 2 is DEDUCED from R80 and R88 (notes/assumptions/2.md). -/
abbrev OpcodeMap.Admissible (m : OpcodeMap) : Prop :=
  (m.hlt = 0x01 ∧ m.ldi = 0x82 ∧ m.prn = 0x47) ∧
  (HasFields m.add 2 true false ∧ HasFields m.sub 2 true false ∧ HasFields m.mul 2 true false) ∧
  (HasFields m.push 1 false false ∧ HasFields m.pop 1 false false) ∧
  HasFields m.call 1 false true ∧
  (operandCount m.ret ≤ 2 ∧ isAluOp m.ret = false ∧ setsPc m.ret = true) ∧
  m.bytes.Nodup

/-! ## Classification of an opcode byte (R82) -/

/-- The operation names of R82. -/
inductive Op where
  | hlt | ldi | prn | push | pop | call | ret | add | sub | mul
  deriving DecidableEq, Repr

/-- The decoder's output `op` (R82): an operation or one of the two verdicts. -/
inductive Verdict where
  | op (o : Op)
  | illegalNamed
  | illegalAlu
  deriving DecidableEq, Repr

/-- The ALU Operation Table, keyed by the whole byte (R82, R141). -/
def classifyAlu (m : OpcodeMap) (ir : Byte) : Verdict :=
  if ir = m.add then .op .add
  else if ir = m.sub then .op .sub
  else if ir = m.mul then .op .mul
  else .illegalAlu

/-- The Instruction Table, keyed by the whole byte (R82). -/
def classifyNamed (m : OpcodeMap) (ir : Byte) : Verdict :=
  if ir = m.hlt then .op .hlt
  else if ir = m.ldi then .op .ldi
  else if ir = m.prn then .op .prn
  else if ir = m.push then .op .push
  else if ir = m.pop then .op .pop
  else if ir = m.call then .op .call
  else if ir = m.ret then .op .ret
  else .illegalNamed

/-- The decoder's verdict on an opcode byte: bit 5 selects the table (R82). -/
def classify (m : OpcodeMap) (ir : Byte) : Verdict :=
  if isAluOp ir then classifyAlu m ir else classifyNamed m ir

/-! ## Decoding bytes -/

/-- Why bytes are no instruction, in the order the sequencer meets the reasons (R110). -/
inductive Reject where
  /-- There is no opcode byte. -/
  | noOpcode
  /-- ILLEGAL_NAMED (R86). -/
  | unrecognizedOpcode
  /-- ILLEGAL_ALU (R86). -/
  | unsupportedAluOperation
  /-- The k-th operand byte, which the opcode's count covers, is missing; k is the smallest such (R115). -/
  | missingOperand (k : Nat)
  deriving DecidableEq, Repr

/-- The instruction an operation and its operand bytes A and B make (R83). -/
def Op.instr (o : Op) (a b : Byte) : Instr :=
  match o with
  | .hlt  => .hlt
  | .ldi  => .ldi a b
  | .prn  => .prn a
  | .push => .push a
  | .pop  => .pop a
  | .call => .call a
  | .ret  => .ret
  | .add  => .add a b
  | .sub  => .sub a b
  | .mul  => .mul a b

/-- Operand bytes of a known operation: the count of R81 decides how many are needed, before any is used (R115). -/
def decodeOperands (o : Op) (n : Nat) (rest : List Byte) : Except Reject (Instr × List Byte) :=
  if rest.length < n then .error (.missingOperand (rest.length + 1))
  else .ok (o.instr (rest.getD 0 0) (rest.getD 1 0), rest.drop n)

/-- The decoder over a list of bytes: the instruction and the bytes after it, or a named rejection.
The opcode's verdict comes before the operand bytes (R114). -/
def decodeWith (m : OpcodeMap) : List Byte → Except Reject (Instr × List Byte)
  | [] => .error .noOpcode
  | ir :: rest =>
    match classify m ir with
    | .illegalNamed => .error .unrecognizedOpcode
    | .illegalAlu => .error .unsupportedAluOperation
    | .op o => decodeOperands o (operandCount ir) rest

/-- The decoder under the default map. -/
def decode (bytes : List Byte) : Except Reject (Instr × List Byte) :=
  decodeWith OpcodeMap.defaultMap bytes

/-! ## Encoding -/

/-- The opcode byte of an instruction (R85). -/
def Instr.opcode (m : OpcodeMap) : Instr → Byte
  | .hlt => m.hlt
  | .ldi _ _ => m.ldi
  | .prn _ => m.prn
  | .push _ => m.push
  | .pop _ => m.pop
  | .call _ => m.call
  | .ret => m.ret
  | .add _ _ => m.add
  | .sub _ _ => m.sub
  | .mul _ _ => m.mul

/-- The operand bytes of an instruction (R83). A map that gives RET a count above 0 makes it carry bytes that it does not
use (R183); the encoder writes zeros there. -/
def Instr.operands (m : OpcodeMap) : Instr → List Byte
  | .hlt => []
  | .ldi a imm => [a, imm]
  | .prn a => [a]
  | .push a => [a]
  | .pop a => [a]
  | .call a => [a]
  | .ret => List.replicate (operandCount m.ret) 0
  | .add a b => [a, b]
  | .sub a b => [a, b]
  | .mul a b => [a, b]

/-- The bytes of an instruction, opcode first (R80, R92). -/
def encodeWith (m : OpcodeMap) (i : Instr) : List Byte := i.opcode m :: i.operands m

/-- The encoder under the default map. -/
def encode (i : Instr) : List Byte := encodeWith OpcodeMap.defaultMap i

/-! ## Words numbered as the opcode table numbers them -/

/-- The bytes, lowest address first, of an instruction whose low `nbits` bits are `w`: bit 0 of `w` is bit 0 of the first
byte, and every bit from `nbits` on is 0. -/
def tableBytes (nbits w : Nat) : List Byte :=
  let v := w % 2 ^ nbits
  [trunc8 v, trunc8 (v / 256), trunc8 (v / 65536)]

/-- What the decoder reads from such a word, under the default map. -/
def decodeTableWord (nbits w : Nat) : Option Instr :=
  match decode (tableBytes nbits w) with
  | .ok (i, _) => some i
  | .error _ => none

end Sys2Proof
end

