-- ==== Sys2Proof/Machine/Fetch.lean ====
section
/-! DEFINITION. The fetch part of a step (spec/40_sequencer.md R112 to R115), and the storing of a word where it fetches. -/

namespace Sys2Proof.Machine

/-- Up to k bytes from an address upwards, as far as the memory goes. -/
def readBytes : Nat → Nat → State → List Byte
  | 0, _, _ => []
  | k + 1, addr, s =>
    match memRead addr s with
    | .ok v => v :: readBytes k (addr + 1) s
    | .error _ => []

/-- The bytes a step may fetch: the opcode at pc and the two after it, those that exist. A byte the opcode's count does
not cover is read with no effect (spec/20_memory.md R56). -/
def fetchBytes (s : State) : List Byte := readBytes maxInstrBytes s.pc.toNat s

/-- The first step closes the image load port (spec/10_state.md R41). -/
def closeLoadPort (s : State) : State := { s with loadOpen := false }

/-- The opcode byte goes into IR (R34). -/
def latchOpcode (bytes : List Byte) (s : State) : State :=
  match bytes with
  | [] => s
  | ir :: _ => { s with ir := ir }

/-- The operand bytes that the opcode's count covers go into A and B (R35, R115). -/
def latchOperands (bytes : List Byte) (s : State) : State :=
  match bytes with
  | [] => s
  | ir :: rest =>
    { s with
      opA := if 1 ≤ operandCount ir then rest.getD 0 s.opA else s.opA
      opB := if 2 ≤ operandCount ir then rest.getD 1 s.opB else s.opB }

/-- The state in which a step decodes: the load port closed, the opcode in IR. -/
def afterOpcodeFetch (s : State) : State := latchOpcode (fetchBytes s) (closeLoadPort s)

/-- The state in which a step executes its instruction: its operand bytes in A and B as well. -/
def afterFetch (s : State) : State := latchOperands (fetchBytes s) (afterOpcodeFetch s)

/-- The fault a step raises when its bytes are no instruction (R112, R114, R115). -/
def rejectCause (s : State) : Reject → FaultCause
  | .noOpcode => .outOfRangeAddress s.pc.toNat
  | .unrecognizedOpcode => .unrecognizedOpcode
  | .unsupportedAluOperation => .unsupportedAluOperation
  | .missingOperand k => .outOfRangeAddress (s.pc.toNat + k)

/-- Only an opcode fetch out of range leaves IR without the step's opcode (R31). -/
def Reject.fetched : Reject → Bool
  | .noOpcode => false
  | .unrecognizedOpcode => true
  | .unsupportedAluOperation => true
  | .missingOperand _ => true

/-- A step whose bytes are no instruction takes the fault. -/
def takeReject (r : Reject) (s : State) : State := takeFault (Reject.fetched r) (rejectCause s r) s

/-- A word of the opcode table's numbering stored at pc and the two addresses after it, those that exist. -/
def storeFetchWord (s : State) (nbits w : Nat) : State :=
  { s with mem := s.mem.storeBytes s.pc.toNat ((tableBytes nbits w).take (memSize - s.pc.toNat)) }

end Sys2Proof.Machine
end

