-- ==== Sys2Proof/Machine/Step.lean ====
section
/-! DEFINITION. One step of the sequencer (spec/40_sequencer.md R110). -/

namespace Sys2Proof.Machine

/-- One step under an opcode map: taken when STATUS is RUNNING, and nothing otherwise (R42, R111). -/
def stepWith (m : OpcodeMap) (s : State) : Host.Outcome State Fault Refusal :=
  match s.status with
  | .halted => .next s
  | .faulted => .next s
  | .running =>
    match decodeWith m (fetchBytes s) with
    | .error r => .next (takeReject r (afterOpcodeFetch s))
    | .ok (i, _) => exec i (afterFetch s)

/-- One step under the default opcode map (R8, R85). -/
def step (s : State) : Host.Outcome State Fault Refusal := stepWith OpcodeMap.defaultMap s

/-- The state with a word stored where `step` fetches its next instruction (notes/assumptions/8.md). -/
def State.withFetchWord (s : State) (nbits w : Nat) : State := storeFetchWord s nbits w

end Sys2Proof.Machine
end

