-- ==== Sys2Proof/Machine/HostPort.lean ====
section
/-! DEFINITION. The ports of the block that the host uses: image load, observation and outcome (spec/10_state.md R39 to R45). -/

namespace Sys2Proof.Machine

/-- The image load port (R41, R241): the image goes to cells 0..n-1, before the first step only, and an image of more than
256 bytes never reaches the core. -/
def loadImage (image : List Byte) (s : State) : Host.Outcome State Fault Refusal :=
  if s.loadOpen then
    if image.length ≤ memSize then .next { s with mem := s.mem.storeBytes 0 image }
    else .refused .imageTooLong
  else .fault .loadPortClosed

/-- The fault record (R31). -/
structure FaultRecord where
  kind : FaultKind
  pc : PcWord
  irValid : Bool
  ir : Byte
  info : BitVec 9
  deriving DecidableEq, Repr

/-- The fault record of a state. -/
def State.faultRecord (s : State) : FaultRecord where
  kind := s.faultKind
  pc := s.faultPc
  irValid := s.faultIrValid
  ir := s.faultIr
  info := s.faultInfo

/-- What the observation port shows (R43). -/
structure Observation where
  status : Status
  record : FaultRecord
  regs : Vector Byte 8
  pc : PcWord
  mem : Memory
  out : List Byte
  deriving DecidableEq, Repr

/-- The observation port: a read with no effect on any state (R43). Equal canonical memories show equal cells. -/
def observe (s : State) : Observation where
  status := s.status
  record := s.faultRecord
  regs := s.regs
  pc := s.pc
  mem := s.mem
  out := s.out

/-- The outcomes the core reports to the host (R45). -/
inductive RunOutcome where
  | running
  | halt
  | fault (record : FaultRecord)
  deriving DecidableEq, Repr

/-- The outcome of a state (R45). -/
def runOutcome (s : State) : RunOutcome :=
  match s.status with
  | .running => .running
  | .halted => .halt
  | .faulted => .fault s.faultRecord

end Sys2Proof.Machine
end

