-- ==== Sys2Proof/Machine/Sequencer.lean ====
section
/-! DEFINITION. The step of spec/40_sequencer.md R110 and the fault order of spec/60_exceptions.md R217, written down as the
spec writes them: cell by cell, with the handlers' pseudocode over numbers and the generic PC update. `step` does not use
this file; claims compare `step` with it. -/

namespace Sys2Proof.Machine.Sequencer

/-- `x[i]`, for an index the handler has checked. -/
def x (s : State) (i : Byte) : Byte := s.regs.toList.getD i.toNat 0

/-- `x[i] <- v`. -/
def put (s : State) (i : Byte) (v : Nat) : State := { s with regs := s.regs.setIfInBounds i.toNat (trunc8 v) }

/-- `SP <- v`. -/
def putSp (s : State) (v : Nat) : State := put s 7 v

/-- `MemWrite(addr, 1, v)` at the address SP holds. -/
def writeAtSp (s : State) (v : Byte) : State := { s with mem := s.mem.store (x s 7).toNat v }

/-- `if index > 7: raise RegisterIndexOutOfRange(index)`. -/
def check (index : Byte) (next : Except FaultCause State) : Except FaultCause State :=
  if index.toNat > 7 then .error (.registerIndexOutOfRange index) else next

/-- The handlers' and the ALU's pseudocode (R142 to R144, R160 to R162, R180 to R183): A and B are the operand bytes, p the
address of the opcode. HLT writes nothing here; `halts` says that it signals halt. -/
def handler (op : Op) (A B : Byte) (p : Nat) (s : State) : Except FaultCause State :=
  match op with
  | .hlt => .ok s
  | .ldi => check A (.ok (put s A B.toNat))
  | .prn => check A (.ok { s with out := s.out ++ [x s A] })
  | .push => check A (
      let s := putSp s ((x s 7).toNat + 255)
      .ok (writeAtSp s (x s A)))
  | .pop => check A (
      let s := put s A (s.cell (x s 7).toNat).toNat
      .ok (putSp s ((x s 7).toNat + 1)))
  | .call => check A (
      if p + 2 > 0xFF then .error (.outOfRangeAddress (p + 2))
      else
        let s := putSp s ((x s 7).toNat + 255)
        let s := writeAtSp s (trunc8 (p + 2))
        .ok { s with bt := x s A })
  | .ret =>
      let s := { s with bt := s.cell (x s 7).toNat }
      .ok (putSp s ((x s 7).toNat + 1))
  | .add => check A (check B (.ok (put s A ((x s A).toNat + (x s B).toNat))))
  | .sub => check A (check B (.ok (put s A ((x s A).toNat + 256 - (x s B).toNat))))
  | .mul => check A (check B (.ok (put s A ((x s A).toNat * (x s B).toNat))))

/-- Only HLT signals halt (R119, R160). -/
def halts (op : Op) : Bool := decide (op = .hlt)

/-- A `raise` (R215): `ir` is the opcode byte, if it was fetched. -/
def raise (ir : Option Byte) (c : FaultCause) (s : State) : State :=
  { s with
    status := .faulted
    faultKind := c.kind
    faultPc := s.pc
    faultIrValid := ir.isSome
    faultIr := ir.getD 0
    faultInfo := c.info }

/-- `step()` of R110 under an opcode map. IR, A and B are local to the step, as R34 and R35 allow. -/
def seqStep (m : OpcodeMap) (s : State) : State :=
  match s.status with
  | .halted => s
  | .faulted => s
  | .running =>
    let p := s.pc.toNat
    if p > 0xFF then raise none (.outOfRangeAddress p) s
    else
      let ir := s.cell p
      let n := operandCount ir
      match classify m ir with
      | .illegalNamed => raise (some ir) .unrecognizedOpcode s
      | .illegalAlu => raise (some ir) .unsupportedAluOperation s
      | .op o =>
        if n ≥ 1 ∧ p + 1 > 0xFF then raise (some ir) (.outOfRangeAddress (p + 1)) s
        else if n ≥ 2 ∧ p + 2 > 0xFF then raise (some ir) (.outOfRangeAddress (p + 2)) s
        else
          match handler o (s.cell (p + 1)) (s.cell (p + 2)) p s with
          | .error c => raise (some ir) c s
          | .ok t =>
            let t := if setsPc ir then { t with pc := zext9 t.bt } else { t with pc := BitVec.ofNat 9 (p + n + 1) }
            if halts o then { t with status := .halted } else t

/-- The register operands of an operation, in the order they are checked (R217 item 4). -/
def registerOperands (o : Op) (A B : Byte) : List Byte :=
  match o with
  | .hlt => []
  | .ldi => [A]
  | .prn => [A]
  | .push => [A]
  | .pop => [A]
  | .call => [A]
  | .ret => []
  | .add => [A, B]
  | .sub => [A, B]
  | .mul => [A, B]

/-- Item 5 of R217. -/
def callFault (o : Op) (p : Nat) : Option FaultCause :=
  if o = .call ∧ p + 2 > 0xFF then some (.outOfRangeAddress (p + 2)) else none

/-- Items 4 and 5 of R217. -/
def handlerFault (o : Op) (A B : Byte) (p : Nat) : Option FaultCause :=
  match (registerOperands o A B).find? (fun index => decide (index.toNat > 7)) with
  | some index => some (.registerIndexOutOfRange index)
  | none => callFault o p

/-- The one fault a step from a running state reports: the first in the order of R217, or none. -/
def firstFault (m : OpcodeMap) (s : State) : Option FaultCause :=
  let p := s.pc.toNat
  if p > 0xFF then some (.outOfRangeAddress p)
  else
    match classify m (s.cell p) with
    | .illegalNamed => some .unrecognizedOpcode
    | .illegalAlu => some .unsupportedAluOperation
    | .op o =>
      if p + operandCount (s.cell p) > 0xFF then some (.outOfRangeAddress 0x100)
      else handlerFault o (s.cell (p + 1)) (s.cell (p + 2)) p

end Sys2Proof.Machine.Sequencer
end

