-- ==== Sys2Proof/Safety.lean ====
section
/-! DEFINITION. The terms in which claims about the machine are made: its invariant, its reachable states, the frame of an
instruction and the taking of a fault. -/

namespace Sys2Proof.Machine

/-- What IR, A, B and the load port hold is the same in both states. -/
structure SameLatches (s t : State) : Prop where
  ir : t.ir = s.ir
  opA : t.opA = s.opA
  opB : t.opB = s.opB
  loadOpen : t.loadOpen = s.loadOpen

/-- What an instruction that takes no fault leaves alone, but for the listed registers and memory cells; pc, STATUS, Out and
BT are said beside it. -/
structure Frame (regs : List (Fin 8)) (cells : List Nat) (s t : State) : Prop where
  regs : ∀ r, r ∉ regs → t.reg r = s.reg r
  cells : ∀ addr, addr ∉ cells → t.cell addr = s.cell addr
  record : t.faultRecord = s.faultRecord
  latches : SameLatches s t

/-- `t` is the end of a step that began at `s` and raised `c` (spec/60_exceptions.md R211, R215, R216): STATUS and the fault
record are written and nothing else of what the host sees, nor BT. `ir` is the opcode byte, if it was fetched. -/
structure FaultTaken (ir : Option Byte) (c : FaultCause) (s t : State) : Prop where
  status : t.status = .faulted
  kind : t.faultKind = c.kind
  atPc : t.faultPc = s.pc
  irValid : t.faultIrValid = ir.isSome
  ir : t.faultIr = ir.getD 0
  info : t.faultInfo = c.info
  regs : ∀ r, t.reg r = s.reg r
  cells : ∀ addr, t.cell addr = s.cell addr
  pc : t.pc = s.pc
  out : t.out = s.out
  bt : t.bt = s.bt

/-- The fault record as reset leaves it (R31). -/
def noFault : FaultRecord where
  kind := .none
  pc := 0
  irValid := false
  ir := 0
  info := 0

/-- FAULT_INFO holds what R31 and R211 say for the kind. -/
def InfoMatchesKind (kind : FaultKind) (info : BitVec 9) : Prop :=
  match kind with
  | .none => info = 0
  | .unrecognizedOpcode => info = 0
  | .unsupportedAluOperation => info = 0
  | .outOfRangeAddress => info = 0x100
  | .registerIndexOutOfRange => 8 ≤ info.toNat ∧ info.toNat ≤ 255

/-- The invariant of the machine. -/
structure Inv (s : State) : Prop where
  /-- The memory is in canonical form, every listed address inside it. -/
  memory : s.mem.wf = true
  /-- pc is at most 0x100 (R26). -/
  pcRange : s.pc.toNat ≤ 0x100
  /-- The fault record is written only when a fault ends the run (R31). -/
  clearRecord : s.status ≠ .faulted → s.faultRecord = noFault
  /-- A faulted machine names its fault (R31, R215). -/
  kindHeld : s.status = .faulted → s.faultKind ≠ .none
  /-- After a fault pc still addresses the faulting instruction (R216). -/
  faultAtPc : s.status = .faulted → s.faultPc = s.pc
  /-- FAULT_IR is the opcode byte at pc, where it was fetched (R31). -/
  fetchedIr : s.status = .faulted → s.faultIrValid = true → s.pc.toNat ≤ 0xFF ∧ s.faultIr = s.cell s.pc.toNat
  /-- Where it was not, pc is 0x100 and the kind is OutOfRangeAddress (R31, R112). -/
  unfetchedIr : s.status = .faulted → s.faultIrValid = false →
    s.pc = 0x100 ∧ s.faultIr = 0 ∧ s.faultKind = .outOfRangeAddress
  /-- FAULT_INFO fits the kind; an out-of-range address is always 0x100 (R211, R213). -/
  info : s.status = .faulted → InfoMatchesKind s.faultKind s.faultInfo
  /-- While the load port is open the host sees the reset state and the loaded cells, nothing else (R41, R60). -/
  beforeRun : s.loadOpen = true → observe s = observe { State.reset with mem := s.mem }

/-- The states a machine with opcode map `m` can be in: reset, load before the first step, steps (R122, R240). -/
inductive Reachable (m : OpcodeMap) : State → Prop where
  | reset : Reachable m State.reset
  | load {s t : State} (image : List Byte) : Reachable m s → loadImage image s = .next t → Reachable m t
  | step {s t : State} : Reachable m s → stepWith m s = .next t → Reachable m t

/-- A step is about to be taken and its opcode byte can be fetched. -/
structure Fetches (s : State) (ir : Byte) : Prop where
  running : s.status = .running
  inMemory : s.pc.toNat ≤ 0xFF
  opcode : s.cell s.pc.toNat = ir

/-- What 41_alu.md says of one ALU instruction: its encoding and fields; its result, with nothing else changed but pc; the
register-index faults, A before B; the operand fetch at 0xFE and 0xFF. -/
def AluRule (mk : Byte → Byte → Instr) (byte : OpcodeMap → Byte) (result : Nat → Nat → Nat) : Prop :=
  (∀ (m : OpcodeMap) (a b : Byte), m.Admissible → HasFields (byte m) 2 true false ∧ encodeWith m (mk a b) = [byte m, a, b]) ∧
  (∀ (a b : Byte) (s : State) (ha : a.toNat < 8) (hb : b.toNat < 8),
    ∃ t, exec (mk a b) s = .next t ∧
      (t.reg ⟨a.toNat, ha⟩).toNat = result (s.reg ⟨a.toNat, ha⟩).toNat (s.reg ⟨b.toNat, hb⟩).toNat % 256 ∧
      t.pc = s.pc + 3 ∧ Frame [⟨a.toNat, ha⟩] [] s t ∧ t.status = s.status ∧ t.out = s.out ∧ t.bt = s.bt) ∧
  (∀ (a b : Byte) (s : State), 8 ≤ a.toNat →
    ∃ t, exec (mk a b) s = .next t ∧ FaultTaken (some s.ir) (.registerIndexOutOfRange a) s t) ∧
  (∀ (a b : Byte) (s : State), a.toNat < 8 → 8 ≤ b.toNat →
    ∃ t, exec (mk a b) s = .next t ∧ FaultTaken (some s.ir) (.registerIndexOutOfRange b) s t) ∧
  (∀ (m : OpcodeMap) (s : State), m.Admissible → Fetches s (byte m) → 0xFE ≤ s.pc.toNat →
    ∃ t, stepWith m s = .next t ∧ FaultTaken (some (byte m)) (.outOfRangeAddress 0x100) s t)

/-- The end of a run: no number of further steps changes anything (R30). -/
def Terminal (M : Host.Core) (s : M.State) : Prop := ∀ k, M.run k s = .next s

end Sys2Proof.Machine
end

