-- ==== Sys2Proof/WellFormed.lean ====
section
/-! DEFINITION. Which instructions name registers that exist (spec/10_state.md R23). -/

namespace Sys2Proof

/-- Only the values 0..7 name a register (R23). -/
def namesRegister (operand : Byte) : Bool := decide (operand.toNat < 8)

/-- Every register operand of the instruction names a register. The decoder also accepts the other instructions (R89);
executing one of those raises RegisterIndexOutOfRange (R214). LDI's immediate is never checked (R161). -/
def Instr.wf : Instr → Bool
  | .hlt => true
  | .ldi a _ => namesRegister a
  | .prn a => namesRegister a
  | .push a => namesRegister a
  | .pop a => namesRegister a
  | .call a => namesRegister a
  | .ret => true
  | .add a b => namesRegister a && namesRegister b
  | .sub a b => namesRegister a && namesRegister b
  | .mul a b => namesRegister a && namesRegister b

end Sys2Proof
end

