-- ==== Sys2Proof/Certificates/Slice0/Obligations.lean ====
section
/-! DEFINITION. The statements about CA-CORE, for the provers. Each docstring names the part of spec/ it formalises. -/

open Sys2Proof Sys2Proof.Machine

/-! ## Reset and the host's ports -/

/-- The reset table of 70_reset_and_hazards.md: every register, the pc, STATUS, the fault record, Out, every memory cell.
STATUS, the record and Out at reset are the spec's decision D14. IR, A, B and BT are left out: no value of them is
observable, and the model's 0 is its own choice (log 3). -/
def Obligations.ResetHoldsTheSpecValues : Prop :=
  (∀ r : Fin 8, State.reset.reg r = if r = sp then 0xF4 else 0) ∧
  State.reset.pc = 0 ∧
  State.reset.status = .running ∧
  State.reset.faultRecord = noFault ∧
  State.reset.out = [] ∧
  (∀ addr, State.reset.cell addr = 0)

/-- R33: 256 cells, addresses 0..255, each 0 before the loader writes the image. -/
def Obligations.MemoryIs256CellsZeroAtReset : Prop :=
  (∀ addr, addr ≤ 255 → memRead addr State.reset = .ok 0) ∧
  (∀ addr, 255 < addr → memRead addr State.reset = .error (.outOfRangeAddress addr))

/-- R22: no register is hard-wired, a write is kept modulo 256, and the reset values. -/
def Obligations.RegistersHoldValuesModulo256 : Prop :=
  (∀ (r : Fin 8) (v : Nat) (s : State), ((s.setReg r (trunc8 v)).reg r).toNat = v % 256) ∧
  (∀ (r q : Fin 8) (v : Byte) (s : State), q ≠ r → (s.setReg r v).reg q = s.reg q) ∧
  (∀ r : Fin 8, r.val < 7 → State.reset.reg r = 0) ∧
  State.reset.reg 7 = 0xF4

/-- The image load port of 10_state.md section 8 (decision D13): before the first step an image of n ≤ 256 bytes goes to
cells 0..n-1. Two clauses are the model's own DESIGN CHOICES (log 9): that a longer image is answered by the refusal
`imageTooLong`, where the spec says only that it never reaches the core; and that the cells from n on keep what an earlier
load left there, where the spec says only that cells nothing loaded keep 0. -/
def Obligations.ImageLoadWritesTheImage : Prop :=
  ∀ (image : List Byte) (s : State), s.loadOpen = true → s.mem.wf = true →
    (image.length ≤ 256 → ∃ t, loadImage image s = .next t ∧
      (∀ k (h : k < image.length), t.cell k = image[k]) ∧
      (∀ addr, image.length ≤ addr → t.cell addr = s.cell addr) ∧
      { t with mem := s.mem } = s) ∧
    (256 < image.length → loadImage image s = .refused .imageTooLong)

/-- The load port is not usable once the first step has been taken (10_state.md section 8, decision D13), under every
opcode map. That the model answers its fault `loadPortClosed` is its own choice (log 9). -/
def Obligations.FirstStepClosesTheLoadPort : Prop :=
  ∀ (m : OpcodeMap) (s t : State) (image : List Byte), s.status = .running → stepWith m s = .next t →
    t.loadOpen = false ∧ loadImage image t = .fault .loadPortClosed

/-- No step is taken when STATUS is HALTED or FAULTED (40_sequencer.md section 1). That the machine then answers the state
itself is 10_state.md's "does nothing otherwise" (decision D13; log 6). -/
def Obligations.NoStepUnlessRunning : Prop :=
  ∀ (m : OpcodeMap) (s : State), s.status ≠ .running → stepWith m s = .next s

/-- HALTED and FAULTED are terminal (10_state.md section 4, decision D8): no number of steps changes anything. -/
def Obligations.EndedMachineStaysAsItIs : Prop :=
  ∀ s : State, s.status ≠ .running → Terminal Sys2Proof.core s

/-- The codes of STATUS and FAULT_KIND, FAULT_INFO of each cause, and the three outcomes reported to the host (10_state.md
sections 4 and 8, 60_exceptions.md section 2; decision D8). -/
def Obligations.StatusAndFaultCodes : Prop :=
  [Status.running, .halted, .faulted].map Status.code = [0, 1, 2] ∧
  [FaultKind.none, .unrecognizedOpcode, .unsupportedAluOperation, .outOfRangeAddress, .registerIndexOutOfRange].map
    FaultKind.code = [0, 1, 2, 3, 4] ∧
  FaultCause.unrecognizedOpcode.kind.code = 1 ∧ FaultCause.unrecognizedOpcode.info = 0 ∧
  FaultCause.unsupportedAluOperation.kind.code = 2 ∧ FaultCause.unsupportedAluOperation.info = 0 ∧
  (∀ addr, (FaultCause.outOfRangeAddress addr).kind.code = 3) ∧
  (∀ addr, addr < 512 → (FaultCause.outOfRangeAddress addr).info.toNat = addr) ∧
  (∀ index, (FaultCause.registerIndexOutOfRange index).kind.code = 4) ∧
  (∀ index, (FaultCause.registerIndexOutOfRange index).info.toNat = index.toNat) ∧
  (∀ s : State, (runOutcome s = .running ↔ s.status = .running) ∧ (runOutcome s = .halt ↔ s.status = .halted) ∧
    (s.status = .faulted → runOutcome s = .fault s.faultRecord))

/-! ## Memory -/

/-- R51: reads and writes of the cells 0..255, and the fault of every other address. -/
def Obligations.MemoryAccessRule : Prop :=
  ∀ (addr : Nat) (v : Byte) (s : State), s.mem.wf = true →
    (addr ≤ 255 → memRead addr s = .ok (s.cell addr) ∧
      ∃ t, memWrite addr v s = .ok t ∧ memRead addr t = .ok v ∧
        (∀ other, other ≠ addr → t.cell other = s.cell other) ∧ { t with mem := s.mem } = s) ∧
    (255 < addr → memRead addr s = .error (.outOfRangeAddress addr) ∧
      memWrite addr v s = .error (.outOfRangeAddress addr))

/-- Two memories in canonical form with the same cells are the same data, so that equal observations are equal memories
(the model's form of 20_memory.md section 1, log 7). -/
def Obligations.CanonicalMemoriesAreDeterminedByTheirCells : Prop :=
  ∀ m₁ m₂ : Memory, m₁.wf = true → m₂.wf = true → (∀ addr, m₁.lookup addr = m₂.lookup addr) → m₁ = m₂

/-! ## Encoding and decoding -/

/-- Where the four fields of an opcode byte lie (30_encoding.md section 1), as arithmetic on the byte's number. -/
def Obligations.OpcodeFieldsLieWhereTheSpecPutsThem : Prop :=
  ∀ ir : Byte,
    operandCount ir = ir.toNat / 64 ∧
    (isAluOp ir = true ↔ ir.toNat / 32 % 2 = 1) ∧
    (setsPc ir = true ↔ ir.toNat / 16 % 2 = 1) ∧
    (identifier ir).toNat = ir.toNat % 16

/-- The default opcode map meets every constraint on a map (30_encoding.md section 2; its seven bytes from general knowledge
are PRESUMED, log 1). -/
def Obligations.DefaultMapIsAdmissible : Prop :=
  OpcodeMap.defaultMap.Admissible

/-- One word per constructor, written out from the encoding table of 30_encoding.md section 2 (seven bytes PRESUMED, log 1). -/
def Obligations.OpcodeTableWordsDecode : Prop :=
  decode [0b00000001] = .ok (.hlt, []) ∧
  decode [0b10000010, 0b00000101, 0b11111111] = .ok (.ldi 5 255, []) ∧
  decode [0b01000111, 0b00000111] = .ok (.prn 7, []) ∧
  decode [0b01000101, 0b00000010] = .ok (.push 2, []) ∧
  decode [0b01000110, 0b00000001] = .ok (.pop 1, []) ∧
  decode [0b01010000, 0b00000011] = .ok (.call 3, []) ∧
  decode [0b00010001] = .ok (.ret, []) ∧
  decode [0b10100000, 0b00000000, 0b00000001] = .ok (.add 0 1, []) ∧
  decode [0b10100001, 0b00000010, 0b00000100] = .ok (.sub 2 4, []) ∧
  decode [0b10100010, 0b00000110, 0b00000011] = .ok (.mul 6 3, [])

/-- Every byte is classified by the whole byte alone, under every admissible map (30_encoding.md sections 1 and 2, decision
D2): an operation's byte is its byte of the map, any other byte with bit 5 set is an illegal ALU operation, and any other
byte is unrecognized. -/
def Obligations.EveryByteIsClassified : Prop :=
  ∀ (m : OpcodeMap) (ir : Byte), m.Admissible →
    (∀ o : Op, classify m ir = .op o ↔ ir = (o.instr 0 0).opcode m) ∧
    (classify m ir = .illegalAlu ↔ isAluOp ir = true ∧ ir ∉ m.bytes) ∧
    (classify m ir = .illegalNamed ↔ isAluOp ir = false ∧ ir ∉ m.bytes)

/-- The counts of the default map's classification: 10 instructions, 125 and 121 illegal bytes (30_encoding.md section 2,
decision D2; log 1). -/
def Obligations.ClassificationCounts : Prop :=
  ((List.range 256).filter fun v => classify OpcodeMap.defaultMap (trunc8 v) = .illegalAlu).length = 125 ∧
  ((List.range 256).filter fun v => classify OpcodeMap.defaultMap (trunc8 v) = .illegalNamed).length = 121

/-- R91: the length of an instruction is decided by its first byte alone and is `IR[7:6] + 1`. No decoder state: the decoder
is a function of the bytes. -/
def Obligations.LengthIsDecidedByTheFirstByte : Prop :=
  ∀ (m : OpcodeMap) (bytes rest : List Byte) (i : Instr), decodeWith m bytes = .ok (i, rest) →
    ∃ ir tail, bytes = ir :: tail ∧ bytes.length = (operandCount ir + 1) + rest.length ∧
      rest = bytes.drop (operandCount ir + 1)

/-- Decoding an encoded instruction gives it back and leaves the bytes after it: for every instruction, with every operand
byte, under every admissible opcode map (30_encoding.md sections 1 and 2; log 1 and 2). -/
def Obligations.DecodeOfEncode : Prop :=
  ∀ (m : OpcodeMap) (i : Instr) (rest : List Byte), m.Admissible →
    decodeWith m (encodeWith m i ++ rest) = .ok (i, rest)

/-- Under the default map every instruction has one encoding: bytes that decode to an instruction are its encoding
(30_encoding.md sections 2 and 3; log 1). -/
def Obligations.EncodeOfDecode : Prop :=
  ∀ (bytes rest : List Byte) (i : Instr), decode bytes = .ok (i, rest) → bytes = encode i ++ rest

/-! ## The step -/

/-- A step whose bytes at pc decode to an instruction runs that instruction, under every opcode map: step is exec at the
state after the fetch, which holds the opcode in IR and the covered operand bytes in A and B, has the load port closed, and
is otherwise the state itself (40_sequencer.md sections 1 and 2). -/
def Obligations.StepRunsTheDecodedInstruction : Prop :=
  ∀ (m : OpcodeMap) (s : State) (i : Instr) (rest : List Byte), s.status = .running →
    decodeWith m (fetchBytes s) = .ok (i, rest) →
      stepWith m s = exec i (afterFetch s) ∧
      (afterFetch s).ir = s.cell s.pc.toNat ∧
      (1 ≤ operandCount (s.cell s.pc.toNat) → (afterFetch s).opA = s.cell (s.pc.toNat + 1)) ∧
      (2 ≤ operandCount (s.cell s.pc.toNat) → (afterFetch s).opB = s.cell (s.pc.toNat + 2)) ∧
      (afterFetch s).loadOpen = false ∧
      observe (afterFetch s) = observe s ∧ (afterFetch s).bt = s.bt

/-- The opcode fetch at pc = 0x100 faults with no opcode byte (40_sequencer.md section 2, decision D3). -/
def Obligations.OpcodeFetchPastTheTopFaults : Prop :=
  ∀ (m : OpcodeMap) (s : State), s.status = .running → s.pc = 0x100 →
    ∃ t, stepWith m s = .next t ∧ FaultTaken none (.outOfRangeAddress 0x100) s t

/-- A byte that is no instruction ends the run at once with its kind of fault and the record of the opcode and the pc, every
register as it was, and the instruction is not retried: the run is over (60_exceptions.md section 2; the record's form is
decision D8, the classification that of the default map, log 1). -/
def Obligations.IllegalOpcodesAreFatal : Prop :=
  ∀ (s : State) (ir : Byte), Fetches s ir →
    (isAluOp ir = false → ir ∉ OpcodeMap.defaultMap.bytes →
      ∃ t, step s = .next t ∧ FaultTaken (some ir) .unrecognizedOpcode s t ∧ Terminal Sys2Proof.core t) ∧
    (isAluOp ir = true → ir ∉ OpcodeMap.defaultMap.bytes →
      ∃ t, step s = .next t ∧ FaultTaken (some ir) .unsupportedAluOperation s t ∧ Terminal Sys2Proof.core t)

/-- An operand byte that the opcode's count covers and that lies past address 0xFF faults before the handler runs, with the
lowest such address, 0x100 (40_sequencer.md section 2, decision D4). -/
def Obligations.OperandFetchPastTheTopFaults : Prop :=
  ∀ (m : OpcodeMap) (s : State) (ir : Byte) (o : Op), m.Admissible → Fetches s ir → classify m ir = .op o →
    0xFF < s.pc.toNat + operandCount ir →
      ∃ t, stepWith m s = .next t ∧ FaultTaken (some ir) (.outOfRangeAddress 0x100) s t

/-- Faults are precise (60_exceptions.md section 3, decision D7): a step that ends in FAULTED wrote STATUS and the record and
nothing else, whatever its instruction. -/
def Obligations.FaultsArePrecise : Prop :=
  ∀ (m : OpcodeMap) (s t : State), s.status = .running → stepWith m s = .next t → t.status = .faulted →
    ∃ (ir : Option Byte) (c : FaultCause), FaultTaken ir c s t ∧
      ir = if s.pc.toNat ≤ 0xFF then some (s.cell s.pc.toNat) else none

/-- A step reports exactly one fault, the first of the order in 60_exceptions.md section 4 (decision D7), and none where that
order has none. -/
def Obligations.StepReportsTheFirstFault : Prop :=
  ∀ (m : OpcodeMap) (s : State), m.Admissible → s.status = .running →
    ∃ t, stepWith m s = .next t ∧
      (∀ c, Sequencer.firstFault m s = some c → t.status = .faulted ∧ t.faultKind = c.kind ∧ t.faultInfo = c.info) ∧
      (Sequencer.firstFault m s = none → t.status ≠ .faulted)

/-- The PC update of a step that does not fault, from the opcode's fields alone (40_sequencer.md section 4, decision D3): the
incrementer's sum, with no wrap, or BT. Only a step whose sets-PC bit is set writes BT. -/
def Obligations.PcAdvancesByTheOpcodeFields : Prop :=
  ∀ (m : OpcodeMap) (s t : State) (ir : Byte), m.Admissible → Fetches s ir → stepWith m s = .next t →
    t.status ≠ .faulted →
      (setsPc ir = false → t.pc.toNat = s.pc.toNat + operandCount ir + 1 ∧ t.pc.toNat ≤ 0x100 ∧ t.bt = s.bt) ∧
      (setsPc ir = true → t.pc = zext9 t.bt)

/-- The run ends successfully only through HLT (40_sequencer.md section 4, decision D10): a step that can fetch ends in
HALTED exactly when it runs HLT. -/
def Obligations.OnlyHltHalts : Prop :=
  ∀ (m : OpcodeMap) (s t : State) (ir : Byte), m.Admissible → Fetches s ir → stepWith m s = .next t →
    (t.status = .halted ↔ ir = m.hlt)

/-- No state and no byte stops the model itself: every step answers a next state, under every opcode map. Every error of the
spec is a state of the machine, FAULTED (60_exceptions.md sections 1 and 3; log 5). -/
def Obligations.EveryStepAnswersANextState : Prop :=
  ∀ (m : OpcodeMap) (s : State), ∃ t, stepWith m s = .next t

/-- The step is the spec's own step() (40_sequencer.md section 1, decisions D4 and D7): what the host observes after it, and
BT, are what the pseudocode, written down line by line, leaves. -/
def Obligations.StepIsTheSpecsSequencer : Prop :=
  ∀ (m : OpcodeMap) (s : State), m.Admissible →
    ∃ t, stepWith m s = .next t ∧ observe t = observe (Sequencer.seqStep m s) ∧ t.bt = (Sequencer.seqStep m s).bt

/-- IR, A, B and BT are transient (10_state.md section 7): what they hold between steps changes nothing the host can see, in
any number of steps. So neither the model's reset value of them nor what it leaves in them is observable (log 3). -/
def Obligations.TransientRegistersAreNeverObserved : Prop :=
  ∀ (k : Nat) (s₁ s₂ : State), observe s₁ = observe s₂ →
    ∃ t₁ t₂, Sys2Proof.core.run k s₁ = .next t₁ ∧ Sys2Proof.core.run k s₂ = .next t₂ ∧ observe t₁ = observe t₂

/-! ## Whole-machine rules -/

/-- The registers a step may write are those of the table in 10_state.md section 1 (decision D9), under every admissible map. -/
def Obligations.StepWritesOnlyTheListedRegisters : Prop :=
  ∀ (m : OpcodeMap) (s t : State) (r : Fin 8) (ir : Byte), m.Admissible → Fetches s ir → stepWith m s = .next t →
    t.reg r ≠ s.reg r →
      (ir ∈ [m.ldi, m.pop, m.add, m.sub, m.mul] ∧ r.val = (s.cell (s.pc.toNat + 1)).toNat) ∨
      (ir ∈ [m.push, m.pop, m.call, m.ret] ∧ r = sp)

/-- Only PUSH and CALL write memory, one byte, at the decremented SP (20_memory.md section 2, the writes of its table). -/
def Obligations.StepWritesOnlyTheStackSlot : Prop :=
  ∀ (m : OpcodeMap) (s t : State) (addr : Nat) (ir : Byte), m.Admissible → Fetches s ir → stepWith m s = .next t →
    t.cell addr ≠ s.cell addr → ir ∈ [m.push, m.call] ∧ addr = ((s.reg sp).toNat + 255) % 256

/-- Out is append-only and only PRN writes it, by one byte (10_state.md section 5, decision D12). -/
def Obligations.OnlyPrnAppendsToOut : Prop :=
  ∀ (m : OpcodeMap) (s t : State) (ir : Byte), m.Admissible → Fetches s ir → stepWith m s = .next t →
    t.out = s.out ∨ (ir = m.prn ∧ ∃ v, t.out = s.out ++ [v])

/-- Output that a run has produced stays: along any number of steps Out only grows (10_state.md section 5, 60_exceptions.md
section 3; decisions D7 and D12). -/
def Obligations.OutOnlyGrowsAlongARun : Prop :=
  ∀ (k : Nat) (s : State), ∃ t, Sys2Proof.core.run k s = .next t ∧ ∃ added, t.out = s.out ++ added ∧ added.length ≤ k

/-- A byte that PUSH writes is what the next step fetches when pc reaches it, and the step that writes uses the operand it
fetched before its write (20_memory.md sections 3 and 6, decisions D11 and D16). -/
def Obligations.PushedByteIsFetchedNext : Prop :=
  ∀ (m : OpcodeMap) (s : State) (a : Byte) (ha : a.toNat < 8), m.Admissible → s.mem.wf = true → Fetches s m.push →
    s.pc.toNat + 1 ≤ 0xFF → s.cell (s.pc.toNat + 1) = a →
      ∃ t, stepWith m s = .next t ∧
        (∀ u : State, u.mem = t.mem → u.pc.toNat = pushSlot s →
          (fetchBytes u).head? = some (if a = 7 then spDec (s.reg sp) else s.reg ⟨a.toNat, ha⟩))

/-! ## The invariant -/

/-- The invariant holds at reset. -/
def Obligations.ResetMeetsTheInvariant : Prop :=
  Inv State.reset

/-- Every step keeps the invariant, under every admissible opcode map: the memory stays canonical, pc stays at most 0x100,
the fault record stays clear until a fault writes it and then agrees with pc, the memory and its kind (10_state.md sections
2, 4 and 8, 60_exceptions.md sections 2 and 3; decisions D3, D7, D8). -/
def Obligations.StepKeepsTheInvariant : Prop :=
  ∀ (m : OpcodeMap) (s t : State), m.Admissible → Inv s → stepWith m s = .next t → Inv t

/-- Loading an image keeps the invariant (10_state.md section 8, decision D13). -/
def Obligations.ImageLoadKeepsTheInvariant : Prop :=
  ∀ (image : List Byte) (s t : State), Inv s → loadImage image s = .next t → Inv t

/-- Every state a machine can be in, whatever image was loaded, meets the invariant: what ResetMeetsTheInvariant,
StepKeepsTheInvariant and ImageLoadKeepsTheInvariant give together. (That several loads are allowed is the model's choice,
log 9.) -/
def Obligations.ReachableStatesMeetTheInvariant : Prop :=
  ∀ (m : OpcodeMap) (s : State), m.Admissible → Reachable m s → Inv s

/-! ## The ALU instructions -/

/-- ADD (41_alu.md section 2, the rule of ADD): the sum modulo 256, with the encoding and the exceptions given there. Its
default byte is PRESUMED (log 1); the register-index fault and the record a fault leaves are the spec's decisions D5, D7, D8. -/
def Obligations.AddWritesTheSum : Prop :=
  OpcodeMap.defaultMap.add = 0xA0 ∧ AluRule .add OpcodeMap.add (fun x y => x + y)

/-- SUB (41_alu.md section 2; the spec marks its rule as derived): the difference modulo 256. Default byte, index fault and
record as for ADD. -/
def Obligations.SubWritesTheDifference : Prop :=
  OpcodeMap.defaultMap.sub = 0xA1 ∧ AluRule .sub OpcodeMap.sub (fun x y => x + 256 - y)

/-- MUL (41_alu.md section 2, the rule of MUL): the low byte of the product, with the encoding and the exceptions given
there. Default byte, index fault and record as for ADD. -/
def Obligations.MulWritesTheLowByteOfTheProduct : Prop :=
  OpcodeMap.defaultMap.mul = 0xA2 ∧ AluRule .mul OpcodeMap.mul (fun x y => x * y)

/-- The low 8 bits are also the two's-complement result of the operands read as signed bytes (41_alu.md section 3, marked
derived there). -/
def Obligations.AluResultsAreAlsoTheSignedResults : Prop :=
  ∀ x y : Byte,
    (aluAdd x y).toInt = (x.toInt + y.toInt).bmod 256 ∧
    (aluSub x y).toInt = (x.toInt - y.toInt).bmod 256 ∧
    (aluMul x y).toInt = (x.toInt * y.toInt).bmod 256

/-! ## HLT, LDI and PRN -/

/-- HLT (42_register_and_io.md, decision D10): pc moves on by 1, then STATUS is HALTED; it has no operand and no fault, and at
0xFF it halts with pc = 0x100. -/
def Obligations.HltHaltsAfterThePcUpdate : Prop :=
  (∀ s : State, ∃ t, exec .hlt s = .next t ∧ t.status = .halted ∧ t.pc = s.pc + 1 ∧
    Frame [] [] s t ∧ t.out = s.out ∧ t.bt = s.bt) ∧
  (∀ (m : OpcodeMap) (s : State), m.Admissible → Fetches s m.hlt →
    ∃ t, stepWith m s = .next t ∧ t.status = .halted ∧ t.pc.toNat = s.pc.toNat + 1)

/-- LDI (42_register_and_io.md, decision D5): the register holds the immediate byte, every value of it; a register index above
7 faults and writes nothing. -/
def Obligations.LdiLoadsTheImmediate : Prop :=
  (∀ (a imm : Byte) (s : State) (ha : a.toNat < 8), ∃ t, exec (.ldi a imm) s = .next t ∧
    t.reg ⟨a.toNat, ha⟩ = imm ∧ t.pc = s.pc + 3 ∧
    Frame [⟨a.toNat, ha⟩] [] s t ∧ t.status = s.status ∧ t.out = s.out ∧ t.bt = s.bt) ∧
  (∀ (a imm : Byte) (s : State), 8 ≤ a.toNat →
    ∃ t, exec (.ldi a imm) s = .next t ∧ FaultTaken (some s.ir) (.registerIndexOutOfRange a) s t)

/-- PRN (42_register_and_io.md, decisions D5 and D12): Out gets the register's byte at its end, no register and no cell
changes; a register index above 7 faults and Out is unchanged. -/
def Obligations.PrnAppendsTheRegister : Prop :=
  (∀ (a : Byte) (s : State) (ha : a.toNat < 8), ∃ t, exec (.prn a) s = .next t ∧
    t.out = s.out ++ [s.reg ⟨a.toNat, ha⟩] ∧ t.pc = s.pc + 2 ∧
    Frame [] [] s t ∧ t.status = s.status ∧ t.bt = s.bt) ∧
  (∀ (a : Byte) (s : State), 8 ≤ a.toNat →
    ∃ t, exec (.prn a) s = .next t ∧ FaultTaken (some s.ir) (.registerIndexOutOfRange a) s t)

/-! ## PUSH, POP, CALL and RET -/

/-- PUSH (43_stack_and_call.md, decisions D5 and D9): SP - 1 modulo 256, and the cell it addresses holds the register, which
for R7 is the decremented SP. -/
def Obligations.PushStoresTheRegister : Prop :=
  (∀ (a : Byte) (s : State) (ha : a.toNat < 8), s.mem.wf = true → ∃ t, exec (.push a) s = .next t ∧
    (t.reg sp).toNat = ((s.reg sp).toNat + 255) % 256 ∧
    t.cell (t.reg sp).toNat = (if a = 7 then t.reg sp else s.reg ⟨a.toNat, ha⟩) ∧
    t.pc = s.pc + 2 ∧ Frame [sp] [pushSlot s] s t ∧ t.status = s.status ∧ t.out = s.out ∧ t.bt = s.bt) ∧
  (∀ (a : Byte) (s : State), 8 ≤ a.toNat →
    ∃ t, exec (.push a) s = .next t ∧ FaultTaken (some s.ir) (.registerIndexOutOfRange a) s t)

/-- POP (43_stack_and_call.md, decisions D5 and D9): the register holds the cell at SP and SP + 1 modulo 256 follows; for R7
the popped byte is incremented. The cell is not cleared. -/
def Obligations.PopLoadsTheRegister : Prop :=
  (∀ (a : Byte) (s : State) (ha : a.toNat < 8), ∃ t, exec (.pop a) s = .next t ∧
    (a ≠ 7 → t.reg ⟨a.toNat, ha⟩ = s.cell (s.reg sp).toNat ∧ (t.reg sp).toNat = ((s.reg sp).toNat + 1) % 256) ∧
    (a = 7 → (t.reg sp).toNat = ((s.cell (s.reg sp).toNat).toNat + 1) % 256) ∧
    t.pc = s.pc + 2 ∧ Frame [⟨a.toNat, ha⟩, sp] [] s t ∧ t.status = s.status ∧ t.out = s.out ∧ t.bt = s.bt) ∧
  (∀ (a : Byte) (s : State), 8 ≤ a.toNat →
    ∃ t, exec (.pop a) s = .next t ∧ FaultTaken (some s.ir) (.registerIndexOutOfRange a) s t)

/-- CALL (43_stack_and_call.md, decisions D5, D6 and D9): where the return address p + 2 is an address, it is stored at the
decremented SP and pc takes the register, which for R7 is the decremented SP. A register index above 7 faults; so does a
return address above 0xFF, after that check. -/
def Obligations.CallStoresTheReturnAddress : Prop :=
  (∀ (a : Byte) (s : State) (ha : a.toNat < 8), s.mem.wf = true → s.pc.toNat + 2 ≤ 0xFF → ∃ t, exec (.call a) s = .next t ∧
    (t.reg sp).toNat = ((s.reg sp).toNat + 255) % 256 ∧
    (t.cell (t.reg sp).toNat).toNat = s.pc.toNat + 2 ∧
    t.bt = (if a = 7 then t.reg sp else s.reg ⟨a.toNat, ha⟩) ∧ t.pc.toNat = t.bt.toNat ∧
    Frame [sp] [pushSlot s] s t ∧ t.status = s.status ∧ t.out = s.out) ∧
  (∀ (a : Byte) (s : State), 8 ≤ a.toNat →
    ∃ t, exec (.call a) s = .next t ∧ FaultTaken (some s.ir) (.registerIndexOutOfRange a) s t) ∧
  (∀ (a : Byte) (s : State), a.toNat < 8 → 0xFF < s.pc.toNat + 2 →
    ∃ t, exec (.call a) s = .next t ∧ FaultTaken (some s.ir) (.outOfRangeAddress (s.pc.toNat + 2)) s t)

/-- RET (43_stack_and_call.md; its default encoding is decision D1, log 1): pc takes the cell at SP, then SP + 1 modulo 256;
no operand and no fault. -/
def Obligations.RetPopsThePc : Prop :=
  ∀ s : State, ∃ t, exec .ret s = .next t ∧
    t.bt = s.cell (s.reg sp).toNat ∧ t.pc.toNat = t.bt.toNat ∧
    (t.reg sp).toNat = ((s.reg sp).toNat + 1) % 256 ∧
    Frame [sp] [] s t ∧ t.status = s.status ∧ t.out = s.out

/-- R59, the stack through SP: it starts at 0xF4; a push (PUSH, CALL) decrements SP modulo 256 and then writes the cell SP
addresses, a pop (POP, RET) reads that cell and then increments SP modulo 256, from every value of SP, 0x00 and 0xFF too,
with no check; loading R7 or an ALU result in R7 moves it. (What PUSH R7 stores and what POP R7 leaves in SP, an index above
7, and a CALL above 0xFD are in the statements about those instructions, with their decisions.) -/
def Obligations.StackIsAddressedBySp : Prop :=
  State.reset.reg sp = 0xF4 ∧
  (∀ (a : Byte) (s : State) (ha : a.toNat < 8), s.mem.wf = true → ∃ t, exec (.push a) s = .next t ∧
    (t.reg sp).toNat = (if (s.reg sp).toNat = 0 then 255 else (s.reg sp).toNat - 1) ∧
    (a ≠ 7 → t.cell (t.reg sp).toNat = s.reg ⟨a.toNat, ha⟩) ∧
    (∀ addr, addr ≠ (t.reg sp).toNat → t.cell addr = s.cell addr)) ∧
  (∀ (a : Byte) (s : State), a.toNat < 8 → s.mem.wf = true → s.pc.toNat + 2 ≤ 0xFF → ∃ t, exec (.call a) s = .next t ∧
    (t.reg sp).toNat = (if (s.reg sp).toNat = 0 then 255 else (s.reg sp).toNat - 1) ∧
    (t.cell (t.reg sp).toNat).toNat = s.pc.toNat + 2 ∧
    (∀ addr, addr ≠ (t.reg sp).toNat → t.cell addr = s.cell addr)) ∧
  (∀ (a : Byte) (s : State) (ha : a.toNat < 8), a ≠ 7 → ∃ t, exec (.pop a) s = .next t ∧
    t.reg ⟨a.toNat, ha⟩ = s.cell (s.reg sp).toNat ∧
    (t.reg sp).toNat = (if (s.reg sp).toNat = 255 then 0 else (s.reg sp).toNat + 1)) ∧
  (∀ s : State, ∃ t, exec .ret s = .next t ∧
    t.pc.toNat = (s.cell (s.reg sp).toNat).toNat ∧
    (t.reg sp).toNat = (if (s.reg sp).toNat = 255 then 0 else (s.reg sp).toNat + 1)) ∧
  (∀ (v : Byte) (s : State), ∃ t, exec (.ldi 7 v) s = .next t ∧ t.reg sp = v) ∧
  (∀ (b : Byte) (s : State) (hb : b.toNat < 8),
    (∃ t, exec (.add 7 b) s = .next t ∧ (t.reg sp).toNat = ((s.reg sp).toNat + (s.reg ⟨b.toNat, hb⟩).toNat) % 256) ∧
    (∃ t, exec (.sub 7 b) s = .next t ∧ (t.reg sp).toNat = ((s.reg sp).toNat + 256 - (s.reg ⟨b.toNat, hb⟩).toNat) % 256) ∧
    (∃ t, exec (.mul 7 b) s = .next t ∧ (t.reg sp).toNat = ((s.reg sp).toNat * (s.reg ⟨b.toNat, hb⟩).toNat) % 256))

/-- PUSH then POP on the same register, R7 too, restores every register (43_stack_and_call.md section on stack discipline,
derived there). -/
def Obligations.PushThenPopRestoresEveryRegister : Prop :=
  ∀ (a : Byte) (s : State), a.toNat < 8 → s.mem.wf = true →
    ∃ t u, exec (.push a) s = .next t ∧ exec (.pop a) t = .next u ∧ (∀ r, u.reg r = s.reg r) ∧ u.pc = s.pc + 4

/-- CALL followed eventually by RET resumes at the instruction after the CALL, when the code between leaves SP and the cell
of the return address as it found them (43_stack_and_call.md section on stack discipline, derived there). -/
def Obligations.RetResumesAfterTheCall : Prop :=
  ∀ (a : Byte) (s : State), a.toNat < 8 → s.mem.wf = true → s.pc.toNat + 2 ≤ 0xFF →
    ∃ t, exec (.call a) s = .next t ∧
      ∀ u : State, u.reg sp = t.reg sp → u.cell (u.reg sp).toNat = t.cell (t.reg sp).toNat →
        ∃ v, exec .ret u = .next v ∧ v.pc.toNat = s.pc.toNat + 2 ∧ v.reg sp = s.reg sp

/-- Calls nested two deep return in last-in first-out order (43_stack_and_call.md section on stack discipline, derived
there): the code between the calls and the returns leaves SP and the cells of the return addresses as it found them. -/
def Obligations.NestedCallsReturnInLifoOrder : Prop :=
  ∀ (a b : Byte) (s : State), a.toNat < 8 → b.toNat < 8 → s.mem.wf = true → s.pc.toNat + 2 ≤ 0xFF →
    ∃ t, exec (.call a) s = .next t ∧
      ∀ s' : State, s'.mem.wf = true → s'.pc.toNat + 2 ≤ 0xFF → s'.reg sp = t.reg sp →
        s'.cell (t.reg sp).toNat = t.cell (t.reg sp).toNat →
        ∃ t', exec (.call b) s' = .next t' ∧
          ∀ u : State, u.reg sp = t'.reg sp → u.cell (t'.reg sp).toNat = t'.cell (t'.reg sp).toNat →
            ∃ v, exec .ret u = .next v ∧ v.pc.toNat = s'.pc.toNat + 2 ∧
              ∀ u' : State, u'.reg sp = v.reg sp → u'.cell (v.reg sp).toNat = t'.cell (v.reg sp).toNat →
                ∃ v', exec .ret u' = .next v' ∧ v'.pc.toNat = s.pc.toNat + 2 ∧ v'.reg sp = s.reg sp

/-! ## Frames -/

/-- What LDI, ADD, SUB and MUL leave alone (10_state.md sections 1 and 3, 41_alu.md section 1; decision D5 for the index
fault): every register but the destination, every byte of memory, Out, BT, STATUS and the fault record. There is no flag to
name. With an index above 7, everything but STATUS and the record. -/
def Obligations.FrameOfLdiAndTheAlu : Prop :=
  ∀ (i : Instr) (a b : Byte) (s t : State), i ∈ [Instr.ldi a b, .add a b, .sub a b, .mul a b] → exec i s = .next t →
    SameLatches s t ∧ (∀ addr, t.cell addr = s.cell addr) ∧ t.out = s.out ∧ t.bt = s.bt ∧
    (∀ r : Fin 8, r.val ≠ a.toNat → t.reg r = s.reg r) ∧
    (i.wf = true → t.status = s.status ∧ t.faultRecord = s.faultRecord) ∧
    (i.wf = false → t.pc = s.pc ∧ ∀ r, t.reg r = s.reg r)

/-- What HLT and PRN leave alone (42_register_and_io.md; decisions D5, D10, D12): every register, every byte of memory, BT;
HLT also Out, PRN also STATUS unless its index is above 7; the fault record unless a fault is taken. -/
def Obligations.FrameOfHltAndPrn : Prop :=
  ∀ (a : Byte) (i : Instr) (s t : State), i ∈ [Instr.hlt, .prn a] → exec i s = .next t →
    SameLatches s t ∧ (∀ addr, t.cell addr = s.cell addr) ∧ t.bt = s.bt ∧ (∀ r, t.reg r = s.reg r) ∧
    (i = .hlt → t.out = s.out) ∧ (i = .prn a → i.wf = true → t.status = s.status) ∧
    (i.wf = true → t.faultRecord = s.faultRecord) ∧ (i.wf = false → t.pc = s.pc ∧ t.out = s.out)

/-- What POP and RET leave alone (43_stack_and_call.md; decisions D5 and D9): every register but SP and POP's destination,
every byte of memory, Out, STATUS and the fault record; POP also BT. With an index above 7, everything but STATUS and the
record. -/
def Obligations.FrameOfPopAndRet : Prop :=
  ∀ (a : Byte) (i : Instr) (s t : State), i ∈ [Instr.pop a, .ret] → exec i s = .next t →
    SameLatches s t ∧ (∀ addr, t.cell addr = s.cell addr) ∧ t.out = s.out ∧ (i = .pop a → t.bt = s.bt) ∧
    (∀ r : Fin 8, r ≠ sp → (i = .pop a → r.val ≠ a.toNat) → t.reg r = s.reg r) ∧
    (i.wf = true → t.status = s.status ∧ t.faultRecord = s.faultRecord) ∧
    (i.wf = false → t.pc = s.pc ∧ ∀ r, t.reg r = s.reg r)

/-- What PUSH and CALL leave alone (43_stack_and_call.md; decisions D5, D6 and D9): every register but SP, every byte of
memory but the one at the address they store to, Out; PUSH also BT. Where they do not fault, STATUS and the fault record;
where they fault (an index above 7; for CALL, a return address above 0xFF), every register and every byte of memory. -/
def Obligations.FrameOfPushAndCall : Prop :=
  ∀ (a : Byte) (i : Instr) (s t : State), i ∈ [Instr.push a, .call a] → exec i s = .next t →
    SameLatches s t ∧ (∀ slot, pushSlot s = slot → ∀ addr, addr ≠ slot → t.cell addr = s.cell addr) ∧ t.out = s.out ∧
    (i = .push a → t.bt = s.bt) ∧ (∀ r : Fin 8, r ≠ sp → t.reg r = s.reg r) ∧
    (i.wf = true → (i = .call a → s.pc.toNat + 2 ≤ 0xFF) → t.status = s.status ∧ t.faultRecord = s.faultRecord) ∧
    (i.wf = false ∨ (i = .call a ∧ 0xFF < s.pc.toNat + 2) →
      t.pc = s.pc ∧ t.bt = s.bt ∧ (∀ r, t.reg r = s.reg r) ∧ ∀ addr, t.cell addr = s.cell addr)
end

