-- ==== Sys2Proof/Laws/Decode.lean ====
section
/-! SUPPORT. What the decoder and the encoder can answer, and what admissibility of an opcode map gives. -/

namespace Sys2Proof

/-- The opcode byte of an operation. -/
def Op.byte (m : OpcodeMap) (o : Op) : Byte := (o.instr 0 0).opcode m

/-- The opcode byte does not depend on the operands. -/
theorem Op.opcode_instr (m : OpcodeMap) (o : Op) (a b : Byte) : (o.instr a b).opcode m = o.byte m := by cases o <;> rfl

/-- A byte classified as an operation is that operation's byte. -/
theorem byte_of_classify {m : OpcodeMap} {ir : Byte} {o : Op} (h : classify m ir = .op o) : ir = o.byte m := by
  unfold classify at h
  split_ifs at h
  · unfold classifyAlu at h
    split_ifs at h <;> cases h <;> assumption
  · unfold classifyNamed at h
    split_ifs at h <;> cases h <;> assumption

/-- The fields that every admissible map gives an operation's byte. -/
theorem OpcodeMap.Admissible.fields {m : OpcodeMap} (h : m.Admissible) (o : Op) :
    operandCount (o.byte m) ≤ 2 ∧
    (setsPc (o.byte m) = true ↔ o = .call ∨ o = .ret) ∧
    (isAluOp (o.byte m) = true ↔ o = .add ∨ o = .sub ∨ o = .mul) := by
  obtain ⟨⟨h1, h2, h3⟩, ⟨h4, h5, h6⟩, ⟨h7, h8⟩, h9, h10, -⟩ := h
  cases o with
  | hlt => rw [show Op.hlt.byte m = m.hlt from rfl, h1]; decide
  | ldi => rw [show Op.ldi.byte m = m.ldi from rfl, h2]; decide
  | prn => rw [show Op.prn.byte m = m.prn from rfl, h3]; decide
  | push => simp [show Op.push.byte m = m.push from rfl, h7.1, h7.2.1, h7.2.2]
  | pop => simp [show Op.pop.byte m = m.pop from rfl, h8.1, h8.2.1, h8.2.2]
  | call => simp [show Op.call.byte m = m.call from rfl, h9.1, h9.2.1, h9.2.2]
  | ret => simp [show Op.ret.byte m = m.ret from rfl, h10.1, h10.2.1, h10.2.2]
  | add => simp [show Op.add.byte m = m.add from rfl, h4.1, h4.2.1, h4.2.2]
  | sub => simp [show Op.sub.byte m = m.sub from rfl, h5.1, h5.2.1, h5.2.2]
  | mul => simp [show Op.mul.byte m = m.mul from rfl, h6.1, h6.2.1, h6.2.2]

/-- The operand counts an admissible map fixes; RET's is the map's own (spec/30_encoding.md R84). -/
theorem OpcodeMap.Admissible.count {m : OpcodeMap} (h : m.Admissible) (o : Op) :
    o = .ret ∨ operandCount (o.byte m) = (match o with
      | .hlt => 0 | .ldi => 2 | .prn => 1 | .push => 1 | .pop => 1 | .call => 1 | .ret => 0
      | .add => 2 | .sub => 2 | .mul => 2) := by
  obtain ⟨⟨h1, h2, h3⟩, ⟨h4, h5, h6⟩, ⟨h7, h8⟩, h9, -, -⟩ := h
  cases o with
  | hlt => rw [show Op.hlt.byte m = m.hlt from rfl, h1]; decide
  | ldi => rw [show Op.ldi.byte m = m.ldi from rfl, h2]; decide
  | prn => rw [show Op.prn.byte m = m.prn from rfl, h3]; decide
  | push => exact .inr h7.1
  | pop => exact .inr h8.1
  | call => exact .inr h9.1
  | ret => exact .inl rfl
  | add => exact .inr h4.1
  | sub => exact .inr h5.1
  | mul => exact .inr h6.1

/-- The place of an operation's byte in the list of the ten. -/
def Op.index : Op → Nat
  | .hlt => 0 | .ldi => 1 | .prn => 2 | .push => 3 | .pop => 4 | .call => 5 | .ret => 6 | .add => 7 | .sub => 8 | .mul => 9

theorem Op.index_lt (m : OpcodeMap) (o : Op) : o.index < m.bytes.length := by
  cases o <;> simp [Op.index, OpcodeMap.bytes]

theorem Op.bytes_index (m : OpcodeMap) (o : Op) : m.bytes[o.index]'(o.index_lt m) = o.byte m := by cases o <;> rfl

theorem Op.index_injective {o o' : Op} (h : o.index = o'.index) : o = o' := by
  cases o <;> cases o' <;> first | rfl | cases h

/-- Two operations with one byte under an admissible map are one operation. -/
theorem OpcodeMap.Admissible.byte_injective {m : OpcodeMap} (h : m.Admissible) {o o' : Op}
    (he : o.byte m = o'.byte m) : o = o' := by
  rw [← o.bytes_index m, ← o'.bytes_index m] at he
  exact Op.index_injective ((List.Nodup.getElem_inj_iff h.2.2.2.2.2).1 he)

/-- The verdict on an operation's byte, with the map's bytes named by their operations. -/
theorem classify_byte_eq (m : OpcodeMap) (o : Op) :
    classify m (o.byte m) =
      if isAluOp (o.byte m) then
        if o.byte m = Op.add.byte m then .op .add
        else if o.byte m = Op.sub.byte m then .op .sub
        else if o.byte m = Op.mul.byte m then .op .mul
        else .illegalAlu
      else if o.byte m = Op.hlt.byte m then .op .hlt
      else if o.byte m = Op.ldi.byte m then .op .ldi
      else if o.byte m = Op.prn.byte m then .op .prn
      else if o.byte m = Op.push.byte m then .op .push
      else if o.byte m = Op.pop.byte m then .op .pop
      else if o.byte m = Op.call.byte m then .op .call
      else if o.byte m = Op.ret.byte m then .op .ret
      else .illegalNamed := rfl

/-- Under an admissible map an operation's byte is classified as that operation. -/
theorem OpcodeMap.Admissible.classify_byte {m : OpcodeMap} (h : m.Admissible) (o : Op) :
    classify m (o.byte m) = .op o := by
  have same : ∀ o', o.byte m = o'.byte m ↔ o = o' := fun o' => ⟨h.byte_injective, fun e => e ▸ rfl⟩
  have alu := (h.fields o).2.2
  rw [classify_byte_eq]
  simp only [same, alu]
  cases o <;> rfl

/-- What a successful decoding read. -/
theorem decodeWith_ok {m : OpcodeMap} {bytes rest : List Byte} {i : Instr} (h : decodeWith m bytes = .ok (i, rest)) :
    ∃ ir tail o, bytes = ir :: tail ∧ classify m ir = .op o ∧ operandCount ir ≤ tail.length ∧
      i = o.instr (tail.getD 0 0) (tail.getD 1 0) ∧ rest = tail.drop (operandCount ir) := by
  cases bytes with
  | nil => cases h
  | cons ir tail =>
    simp only [decodeWith] at h
    split at h
    · cases h
    · cases h
    · rename_i o ho
      unfold decodeOperands at h
      split at h
      · cases h
      · rename_i hn
        cases h
        exact ⟨ir, tail, o, rfl, ho, by omega, rfl, rfl⟩

/-- What a rejected decoding read, by the name of the rejection. -/
theorem decodeWith_error {m : OpcodeMap} {bytes : List Byte} {r : Reject} (h : decodeWith m bytes = .error r) :
    (bytes = [] ∧ r = .noOpcode) ∨
    ∃ ir tail, bytes = ir :: tail ∧
      ((classify m ir = .illegalNamed ∧ r = .unrecognizedOpcode) ∨
       (classify m ir = .illegalAlu ∧ r = .unsupportedAluOperation) ∨
       (∃ o, classify m ir = .op o ∧ tail.length < operandCount ir ∧ r = .missingOperand (tail.length + 1))) := by
  cases bytes with
  | nil => cases h; exact .inl ⟨rfl, rfl⟩
  | cons ir tail =>
    refine .inr ⟨ir, tail, rfl, ?_⟩
    simp only [decodeWith] at h
    split at h
    · rename_i hc
      cases h
      exact .inl ⟨hc, rfl⟩
    · rename_i hc
      cases h
      exact .inr (.inl ⟨hc, rfl⟩)
    · rename_i o ho
      unfold decodeOperands at h
      split at h
      · rename_i hn
        cases h
        exact .inr (.inr ⟨o, ho, hn, rfl⟩)
      · cases h

/-- Decoding when the opcode is an operation and its operand bytes are there. -/
theorem decodeWith_op {m : OpcodeMap} {ir : Byte} {tail : List Byte} {o : Op} (ho : classify m ir = .op o)
    (hn : operandCount ir ≤ tail.length) :
    decodeWith m (ir :: tail) = .ok (o.instr (tail.getD 0 0) (tail.getD 1 0), tail.drop (operandCount ir)) := by
  simp only [decodeWith, ho, decodeOperands]
  rw [if_neg (by omega)]

end Sys2Proof
end

