-- ==== Sys2Proof/Laws/Memory.lean ====
section
/-! SUPPORT. The laws of the memory: read after write, the canonical form, and that it determines the memory. -/

namespace Sys2Proof.Machine.Memory

@[simp] theorem lookup_nil (addr : Nat) : lookup [] addr = unlisted := rfl

theorem lookup_consCell_same (addr : Nat) (v : Byte) (rest : Memory) (h : rest.lookup addr = unlisted) :
    (consCell addr v rest).lookup addr = v := by
  unfold consCell
  split <;> simp_all [lookup]

theorem lookup_consCell_other {addr other : Nat} (v : Byte) (rest : Memory) (h : other ≠ addr) :
    (consCell addr v rest).lookup other = rest.lookup other := by
  unfold consCell
  split
  · rfl
  · simp [lookup, Ne.symm h]

/-- A canonical memory lists nothing below its first admissible address. -/
theorem lookup_below {lo addr : Nat} {mem : Memory} (hw : wfFrom lo mem = true) (h : addr < lo) :
    mem.lookup addr = unlisted := by
  induction mem generalizing lo with
  | nil => rfl
  | cons c rest ih =>
    obtain ⟨k, w⟩ := c
    simp only [wfFrom, Bool.and_eq_true, decide_eq_true_eq] at hw
    have hne : k ≠ addr := by omega
    simp only [lookup, if_neg hne]
    exact ih hw.2 (by omega)

/-- A canonical memory lists nothing outside the address space. -/
theorem lookup_outside {lo addr : Nat} {mem : Memory} (hw : wfFrom lo mem = true) (h : memSize ≤ addr) :
    mem.lookup addr = unlisted := by
  induction mem generalizing lo with
  | nil => rfl
  | cons c rest ih =>
    obtain ⟨k, w⟩ := c
    simp only [wfFrom, Bool.and_eq_true, decide_eq_true_eq] at hw
    have hne : k ≠ addr := by omega
    simp only [lookup, if_neg hne]
    exact ih hw.2

theorem wfFrom_mono {lo lo' : Nat} {mem : Memory} (hw : wfFrom lo' mem = true) (h : lo ≤ lo') :
    wfFrom lo mem = true := by
  cases mem with
  | nil => rfl
  | cons c rest =>
    simp only [wfFrom, Bool.and_eq_true, decide_eq_true_eq] at hw ⊢
    exact ⟨⟨⟨by omega, hw.1.1.2⟩, hw.1.2⟩, hw.2⟩

theorem wfFrom_consCell {lo addr : Nat} {rest : Memory} (v : Byte) (hlo : lo ≤ addr) (ha : addr < memSize)
    (hw : wfFrom (addr + 1) rest = true) : wfFrom lo (consCell addr v rest) = true := by
  unfold consCell
  split
  · exact wfFrom_mono hw (by omega)
  · simp_all [wfFrom]

/-- A read of the cell that was written gives the value written. -/
theorem lookup_store_same {lo : Nat} {mem : Memory} (addr : Nat) (v : Byte) (hw : wfFrom lo mem = true) :
    (mem.store addr v).lookup addr = v := by
  induction mem generalizing lo with
  | nil => exact lookup_consCell_same addr v [] rfl
  | cons c rest ih =>
    obtain ⟨k, w⟩ := c
    have hw' := hw
    simp only [wfFrom, Bool.and_eq_true, decide_eq_true_eq] at hw
    simp only [store]
    split
    · rename_i hlt
      refine lookup_consCell_same addr v _ ?_
      have hk : k ≠ addr := by omega
      simp only [lookup, if_neg hk]
      exact lookup_below hw.2 (by omega)
    · split
      · rename_i heq
        exact lookup_consCell_same addr v rest (lookup_below hw.2 (by omega))
      · rename_i hne
        simp only [lookup, if_neg (Ne.symm hne)]
        exact ih hw.2

/-- A write leaves every other cell as it was. -/
theorem lookup_store_other {addr other : Nat} (mem : Memory) (v : Byte) (h : other ≠ addr) :
    (mem.store addr v).lookup other = mem.lookup other := by
  induction mem with
  | nil => exact lookup_consCell_other v [] h
  | cons c rest ih =>
    obtain ⟨k, w⟩ := c
    simp only [store]
    split
    · exact lookup_consCell_other v _ h
    · split
      · rename_i heq
        subst heq
        rw [lookup_consCell_other v rest h]
        simp [lookup, Ne.symm h]
      · simp only [lookup, ih]

/-- A write inside the memory keeps the canonical form. -/
theorem wfFrom_store {lo addr : Nat} {mem : Memory} (v : Byte) (hlo : lo ≤ addr) (ha : addr < memSize)
    (hw : wfFrom lo mem = true) : wfFrom lo (mem.store addr v) = true := by
  induction mem generalizing lo with
  | nil => exact wfFrom_consCell v hlo ha rfl
  | cons c rest ih =>
    obtain ⟨k, w⟩ := c
    have hw' := hw
    simp only [wfFrom, Bool.and_eq_true, decide_eq_true_eq] at hw
    simp only [store]
    split
    · rename_i hlt
      refine wfFrom_consCell v hlo ha ?_
      simp only [wfFrom, Bool.and_eq_true, decide_eq_true_eq]
      exact ⟨⟨⟨by omega, hw.1.1.2⟩, hw.1.2⟩, hw.2⟩
    · split
      · rename_i heq
        subst heq
        exact wfFrom_consCell v hlo ha hw.2
      · simp only [wfFrom, Bool.and_eq_true, decide_eq_true_eq]
        exact ⟨hw.1, ih (by omega) hw.2⟩

theorem wf_store {addr : Nat} {mem : Memory} (v : Byte) (ha : addr < memSize) (hw : mem.wf = true) :
    (mem.store addr v).wf = true :=
  wfFrom_store v (Nat.zero_le _) ha hw

/-- Storing bytes that fit keeps the canonical form. -/
theorem wf_storeBytes {addr : Nat} {mem : Memory} {vs : List Byte} (ha : addr + vs.length ≤ memSize)
    (hw : mem.wf = true) : (mem.storeBytes addr vs).wf = true := by
  induction vs generalizing addr mem with
  | nil => exact hw
  | cons v vs ih =>
    simp only [List.length_cons] at ha
    exact ih (by omega) (wf_store v (by omega) hw)

/-- Storing bytes leaves every cell before and after them as it was. -/
theorem lookup_storeBytes_other {addr other : Nat} (mem : Memory) (vs : List Byte)
    (h : other < addr ∨ addr + vs.length ≤ other) : (mem.storeBytes addr vs).lookup other = mem.lookup other := by
  induction vs generalizing addr mem with
  | nil => rfl
  | cons v vs ih =>
    simp only [List.length_cons] at h
    have hne : other ≠ addr := by omega
    simp only [storeBytes]
    rw [ih _ (by omega), lookup_store_other mem v hne]

/-- Each stored byte is read back. -/
theorem lookup_storeBytes_same {addr k : Nat} {mem : Memory} {vs : List Byte} (hk : k < vs.length)
    (ha : addr + vs.length ≤ memSize) (hw : mem.wf = true) : (mem.storeBytes addr vs).lookup (addr + k) = vs[k] := by
  induction vs generalizing addr k mem with
  | nil => simp at hk
  | cons v vs ih =>
    simp only [List.length_cons] at ha hk
    have hw' : (mem.store addr v).wf = true := wf_store v (by omega) hw
    cases k with
    | zero =>
      simp only [storeBytes, Nat.add_zero, List.getElem_cons_zero]
      rw [lookup_storeBytes_other _ vs (by omega)]
      exact lookup_store_same addr v hw
    | succ k =>
      have := ih (addr := addr + 1) (k := k) (by omega) (by omega) hw'
      simpa [storeBytes, Nat.add_assoc, Nat.add_comm 1 k] using this

/-- The value at the head of a canonical memory is no unlisted one. -/
theorem lookup_head {lo k : Nat} {w : Byte} {rest : Memory} (hw : wfFrom lo ((k, w) :: rest) = true) :
    lookup ((k, w) :: rest) k = w ∧ w ≠ unlisted ∧ lo ≤ k := by
  simp only [wfFrom, Bool.and_eq_true, decide_eq_true_eq] at hw
  exact ⟨by simp [lookup], hw.1.2, hw.1.1.1⟩

end Sys2Proof.Machine.Memory
end

