-- ==== Sys2Proof/Laws/State.lean ====
section
/-! SUPPORT. The fields of the state after each named update: one lemma per field and update. -/

namespace Sys2Proof.Machine

/-! ### `setReg` -/

@[simp] theorem setReg_regs (r : Fin 8) (v : Byte) (s : State) : (s.setReg r v).regs = s.regs.set r.val v r.isLt := rfl
@[simp] theorem setReg_pc (r : Fin 8) (v : Byte) (s : State) : (s.setReg r v).pc = s.pc := rfl
@[simp] theorem setReg_status (r : Fin 8) (v : Byte) (s : State) : (s.setReg r v).status = s.status := rfl
@[simp] theorem setReg_faultKind (r : Fin 8) (v : Byte) (s : State) : (s.setReg r v).faultKind = s.faultKind := rfl
@[simp] theorem setReg_faultPc (r : Fin 8) (v : Byte) (s : State) : (s.setReg r v).faultPc = s.faultPc := rfl
@[simp] theorem setReg_faultIrValid (r : Fin 8) (v : Byte) (s : State) : (s.setReg r v).faultIrValid = s.faultIrValid := rfl
@[simp] theorem setReg_faultIr (r : Fin 8) (v : Byte) (s : State) : (s.setReg r v).faultIr = s.faultIr := rfl
@[simp] theorem setReg_faultInfo (r : Fin 8) (v : Byte) (s : State) : (s.setReg r v).faultInfo = s.faultInfo := rfl
@[simp] theorem setReg_out (r : Fin 8) (v : Byte) (s : State) : (s.setReg r v).out = s.out := rfl
@[simp] theorem setReg_mem (r : Fin 8) (v : Byte) (s : State) : (s.setReg r v).mem = s.mem := rfl
@[simp] theorem setReg_ir (r : Fin 8) (v : Byte) (s : State) : (s.setReg r v).ir = s.ir := rfl
@[simp] theorem setReg_opA (r : Fin 8) (v : Byte) (s : State) : (s.setReg r v).opA = s.opA := rfl
@[simp] theorem setReg_opB (r : Fin 8) (v : Byte) (s : State) : (s.setReg r v).opB = s.opB := rfl
@[simp] theorem setReg_bt (r : Fin 8) (v : Byte) (s : State) : (s.setReg r v).bt = s.bt := rfl
@[simp] theorem setReg_loadOpen (r : Fin 8) (v : Byte) (s : State) : (s.setReg r v).loadOpen = s.loadOpen := rfl
@[simp] theorem setReg_cell (r : Fin 8) (v : Byte) (s : State) (addr : Nat) : (s.setReg r v).cell addr = s.cell addr := rfl
@[simp] theorem setReg_faultRecord (r : Fin 8) (v : Byte) (s : State) : (s.setReg r v).faultRecord = s.faultRecord := rfl

/-! ### `pushSp` -/

@[simp] theorem pushSp_regs (s : State) : (pushSp s).regs = s.regs.set sp.val (spDec (s.reg sp)) sp.isLt := rfl
@[simp] theorem pushSp_pc (s : State) : (pushSp s).pc = s.pc := rfl
@[simp] theorem pushSp_status (s : State) : (pushSp s).status = s.status := rfl
@[simp] theorem pushSp_faultKind (s : State) : (pushSp s).faultKind = s.faultKind := rfl
@[simp] theorem pushSp_faultPc (s : State) : (pushSp s).faultPc = s.faultPc := rfl
@[simp] theorem pushSp_faultIrValid (s : State) : (pushSp s).faultIrValid = s.faultIrValid := rfl
@[simp] theorem pushSp_faultIr (s : State) : (pushSp s).faultIr = s.faultIr := rfl
@[simp] theorem pushSp_faultInfo (s : State) : (pushSp s).faultInfo = s.faultInfo := rfl
@[simp] theorem pushSp_out (s : State) : (pushSp s).out = s.out := rfl
@[simp] theorem pushSp_mem (s : State) : (pushSp s).mem = s.mem := rfl
@[simp] theorem pushSp_ir (s : State) : (pushSp s).ir = s.ir := rfl
@[simp] theorem pushSp_opA (s : State) : (pushSp s).opA = s.opA := rfl
@[simp] theorem pushSp_opB (s : State) : (pushSp s).opB = s.opB := rfl
@[simp] theorem pushSp_bt (s : State) : (pushSp s).bt = s.bt := rfl
@[simp] theorem pushSp_loadOpen (s : State) : (pushSp s).loadOpen = s.loadOpen := rfl
@[simp] theorem pushSp_cell (s : State) (addr : Nat) : (pushSp s).cell addr = s.cell addr := rfl
@[simp] theorem pushSp_faultRecord (s : State) : (pushSp s).faultRecord = s.faultRecord := rfl

/-! ### `advancePc` -/

@[simp] theorem advancePc_regs (n : Nat) (s : State) : (advancePc n s).regs = s.regs := rfl
@[simp] theorem advancePc_pc (n : Nat) (s : State) : (advancePc n s).pc = s.pc + BitVec.ofNat 9 (n + 1) := rfl
@[simp] theorem advancePc_status (n : Nat) (s : State) : (advancePc n s).status = s.status := rfl
@[simp] theorem advancePc_faultKind (n : Nat) (s : State) : (advancePc n s).faultKind = s.faultKind := rfl
@[simp] theorem advancePc_faultPc (n : Nat) (s : State) : (advancePc n s).faultPc = s.faultPc := rfl
@[simp] theorem advancePc_faultIrValid (n : Nat) (s : State) : (advancePc n s).faultIrValid = s.faultIrValid := rfl
@[simp] theorem advancePc_faultIr (n : Nat) (s : State) : (advancePc n s).faultIr = s.faultIr := rfl
@[simp] theorem advancePc_faultInfo (n : Nat) (s : State) : (advancePc n s).faultInfo = s.faultInfo := rfl
@[simp] theorem advancePc_out (n : Nat) (s : State) : (advancePc n s).out = s.out := rfl
@[simp] theorem advancePc_mem (n : Nat) (s : State) : (advancePc n s).mem = s.mem := rfl
@[simp] theorem advancePc_ir (n : Nat) (s : State) : (advancePc n s).ir = s.ir := rfl
@[simp] theorem advancePc_opA (n : Nat) (s : State) : (advancePc n s).opA = s.opA := rfl
@[simp] theorem advancePc_opB (n : Nat) (s : State) : (advancePc n s).opB = s.opB := rfl
@[simp] theorem advancePc_bt (n : Nat) (s : State) : (advancePc n s).bt = s.bt := rfl
@[simp] theorem advancePc_loadOpen (n : Nat) (s : State) : (advancePc n s).loadOpen = s.loadOpen := rfl
@[simp] theorem advancePc_reg (n : Nat) (s : State) (q : Fin 8) : (advancePc n s).reg q = s.reg q := rfl
@[simp] theorem advancePc_cell (n : Nat) (s : State) (addr : Nat) : (advancePc n s).cell addr = s.cell addr := rfl
@[simp] theorem advancePc_faultRecord (n : Nat) (s : State) : (advancePc n s).faultRecord = s.faultRecord := rfl

/-! ### `branchTo` -/

@[simp] theorem branchTo_regs (target : Byte) (s : State) : (branchTo target s).regs = s.regs := rfl
@[simp] theorem branchTo_pc (target : Byte) (s : State) : (branchTo target s).pc = zext9 target := rfl
@[simp] theorem branchTo_status (target : Byte) (s : State) : (branchTo target s).status = s.status := rfl
@[simp] theorem branchTo_faultKind (target : Byte) (s : State) : (branchTo target s).faultKind = s.faultKind := rfl
@[simp] theorem branchTo_faultPc (target : Byte) (s : State) : (branchTo target s).faultPc = s.faultPc := rfl
@[simp] theorem branchTo_faultIrValid (target : Byte) (s : State) : (branchTo target s).faultIrValid = s.faultIrValid := rfl
@[simp] theorem branchTo_faultIr (target : Byte) (s : State) : (branchTo target s).faultIr = s.faultIr := rfl
@[simp] theorem branchTo_faultInfo (target : Byte) (s : State) : (branchTo target s).faultInfo = s.faultInfo := rfl
@[simp] theorem branchTo_out (target : Byte) (s : State) : (branchTo target s).out = s.out := rfl
@[simp] theorem branchTo_mem (target : Byte) (s : State) : (branchTo target s).mem = s.mem := rfl
@[simp] theorem branchTo_ir (target : Byte) (s : State) : (branchTo target s).ir = s.ir := rfl
@[simp] theorem branchTo_opA (target : Byte) (s : State) : (branchTo target s).opA = s.opA := rfl
@[simp] theorem branchTo_opB (target : Byte) (s : State) : (branchTo target s).opB = s.opB := rfl
@[simp] theorem branchTo_bt (target : Byte) (s : State) : (branchTo target s).bt = target := rfl
@[simp] theorem branchTo_loadOpen (target : Byte) (s : State) : (branchTo target s).loadOpen = s.loadOpen := rfl
@[simp] theorem branchTo_reg (target : Byte) (s : State) (q : Fin 8) : (branchTo target s).reg q = s.reg q := rfl
@[simp] theorem branchTo_cell (target : Byte) (s : State) (addr : Nat) : (branchTo target s).cell addr = s.cell addr := rfl
@[simp] theorem branchTo_faultRecord (target : Byte) (s : State) : (branchTo target s).faultRecord = s.faultRecord := rfl

/-! ### `takeFault` -/

@[simp] theorem takeFault_regs (fetched : Bool) (c : FaultCause) (s : State) : (takeFault fetched c s).regs = s.regs := rfl
@[simp] theorem takeFault_pc (fetched : Bool) (c : FaultCause) (s : State) : (takeFault fetched c s).pc = s.pc := rfl
@[simp] theorem takeFault_status (fetched : Bool) (c : FaultCause) (s : State) : (takeFault fetched c s).status = .faulted := rfl
@[simp] theorem takeFault_faultKind (fetched : Bool) (c : FaultCause) (s : State) : (takeFault fetched c s).faultKind = c.kind := rfl
@[simp] theorem takeFault_faultPc (fetched : Bool) (c : FaultCause) (s : State) : (takeFault fetched c s).faultPc = s.pc := rfl
@[simp] theorem takeFault_faultIrValid (fetched : Bool) (c : FaultCause) (s : State) : (takeFault fetched c s).faultIrValid = fetched := rfl
@[simp] theorem takeFault_faultIr (fetched : Bool) (c : FaultCause) (s : State) : (takeFault fetched c s).faultIr = if fetched then s.ir else 0 := rfl
@[simp] theorem takeFault_faultInfo (fetched : Bool) (c : FaultCause) (s : State) : (takeFault fetched c s).faultInfo = c.info := rfl
@[simp] theorem takeFault_out (fetched : Bool) (c : FaultCause) (s : State) : (takeFault fetched c s).out = s.out := rfl
@[simp] theorem takeFault_mem (fetched : Bool) (c : FaultCause) (s : State) : (takeFault fetched c s).mem = s.mem := rfl
@[simp] theorem takeFault_ir (fetched : Bool) (c : FaultCause) (s : State) : (takeFault fetched c s).ir = s.ir := rfl
@[simp] theorem takeFault_opA (fetched : Bool) (c : FaultCause) (s : State) : (takeFault fetched c s).opA = s.opA := rfl
@[simp] theorem takeFault_opB (fetched : Bool) (c : FaultCause) (s : State) : (takeFault fetched c s).opB = s.opB := rfl
@[simp] theorem takeFault_bt (fetched : Bool) (c : FaultCause) (s : State) : (takeFault fetched c s).bt = s.bt := rfl
@[simp] theorem takeFault_loadOpen (fetched : Bool) (c : FaultCause) (s : State) : (takeFault fetched c s).loadOpen = s.loadOpen := rfl
@[simp] theorem takeFault_reg (fetched : Bool) (c : FaultCause) (s : State) (q : Fin 8) : (takeFault fetched c s).reg q = s.reg q := rfl
@[simp] theorem takeFault_cell (fetched : Bool) (c : FaultCause) (s : State) (addr : Nat) : (takeFault fetched c s).cell addr = s.cell addr := rfl

/-! ### `closeLoadPort` -/

@[simp] theorem closeLoadPort_regs (s : State) : (closeLoadPort s).regs = s.regs := rfl
@[simp] theorem closeLoadPort_pc (s : State) : (closeLoadPort s).pc = s.pc := rfl
@[simp] theorem closeLoadPort_status (s : State) : (closeLoadPort s).status = s.status := rfl
@[simp] theorem closeLoadPort_faultKind (s : State) : (closeLoadPort s).faultKind = s.faultKind := rfl
@[simp] theorem closeLoadPort_faultPc (s : State) : (closeLoadPort s).faultPc = s.faultPc := rfl
@[simp] theorem closeLoadPort_faultIrValid (s : State) : (closeLoadPort s).faultIrValid = s.faultIrValid := rfl
@[simp] theorem closeLoadPort_faultIr (s : State) : (closeLoadPort s).faultIr = s.faultIr := rfl
@[simp] theorem closeLoadPort_faultInfo (s : State) : (closeLoadPort s).faultInfo = s.faultInfo := rfl
@[simp] theorem closeLoadPort_out (s : State) : (closeLoadPort s).out = s.out := rfl
@[simp] theorem closeLoadPort_mem (s : State) : (closeLoadPort s).mem = s.mem := rfl
@[simp] theorem closeLoadPort_ir (s : State) : (closeLoadPort s).ir = s.ir := rfl
@[simp] theorem closeLoadPort_opA (s : State) : (closeLoadPort s).opA = s.opA := rfl
@[simp] theorem closeLoadPort_opB (s : State) : (closeLoadPort s).opB = s.opB := rfl
@[simp] theorem closeLoadPort_bt (s : State) : (closeLoadPort s).bt = s.bt := rfl
@[simp] theorem closeLoadPort_loadOpen (s : State) : (closeLoadPort s).loadOpen = false := rfl
@[simp] theorem closeLoadPort_reg (s : State) (q : Fin 8) : (closeLoadPort s).reg q = s.reg q := rfl
@[simp] theorem closeLoadPort_cell (s : State) (addr : Nat) : (closeLoadPort s).cell addr = s.cell addr := rfl
@[simp] theorem closeLoadPort_faultRecord (s : State) : (closeLoadPort s).faultRecord = s.faultRecord := rfl

/-! ### `latchOpcode` -/

@[simp] theorem latchOpcode_regs (bytes : List Byte) (s : State) : (latchOpcode bytes s).regs = s.regs := by cases bytes <;> rfl
@[simp] theorem latchOpcode_pc (bytes : List Byte) (s : State) : (latchOpcode bytes s).pc = s.pc := by cases bytes <;> rfl
@[simp] theorem latchOpcode_status (bytes : List Byte) (s : State) : (latchOpcode bytes s).status = s.status := by cases bytes <;> rfl
@[simp] theorem latchOpcode_faultKind (bytes : List Byte) (s : State) : (latchOpcode bytes s).faultKind = s.faultKind := by cases bytes <;> rfl
@[simp] theorem latchOpcode_faultPc (bytes : List Byte) (s : State) : (latchOpcode bytes s).faultPc = s.faultPc := by cases bytes <;> rfl
@[simp] theorem latchOpcode_faultIrValid (bytes : List Byte) (s : State) : (latchOpcode bytes s).faultIrValid = s.faultIrValid := by cases bytes <;> rfl
@[simp] theorem latchOpcode_faultIr (bytes : List Byte) (s : State) : (latchOpcode bytes s).faultIr = s.faultIr := by cases bytes <;> rfl
@[simp] theorem latchOpcode_faultInfo (bytes : List Byte) (s : State) : (latchOpcode bytes s).faultInfo = s.faultInfo := by cases bytes <;> rfl
@[simp] theorem latchOpcode_out (bytes : List Byte) (s : State) : (latchOpcode bytes s).out = s.out := by cases bytes <;> rfl
@[simp] theorem latchOpcode_mem (bytes : List Byte) (s : State) : (latchOpcode bytes s).mem = s.mem := by cases bytes <;> rfl
@[simp] theorem latchOpcode_opA (bytes : List Byte) (s : State) : (latchOpcode bytes s).opA = s.opA := by cases bytes <;> rfl
@[simp] theorem latchOpcode_opB (bytes : List Byte) (s : State) : (latchOpcode bytes s).opB = s.opB := by cases bytes <;> rfl
@[simp] theorem latchOpcode_bt (bytes : List Byte) (s : State) : (latchOpcode bytes s).bt = s.bt := by cases bytes <;> rfl
@[simp] theorem latchOpcode_loadOpen (bytes : List Byte) (s : State) : (latchOpcode bytes s).loadOpen = s.loadOpen := by cases bytes <;> rfl
@[simp] theorem latchOpcode_reg (bytes : List Byte) (s : State) (q : Fin 8) : (latchOpcode bytes s).reg q = s.reg q := by cases bytes <;> rfl
@[simp] theorem latchOpcode_cell (bytes : List Byte) (s : State) (addr : Nat) : (latchOpcode bytes s).cell addr = s.cell addr := by cases bytes <;> rfl
@[simp] theorem latchOpcode_faultRecord (bytes : List Byte) (s : State) : (latchOpcode bytes s).faultRecord = s.faultRecord := by cases bytes <;> rfl

/-! ### `latchOperands` -/

@[simp] theorem latchOperands_regs (bytes : List Byte) (s : State) : (latchOperands bytes s).regs = s.regs := by cases bytes <;> rfl
@[simp] theorem latchOperands_pc (bytes : List Byte) (s : State) : (latchOperands bytes s).pc = s.pc := by cases bytes <;> rfl
@[simp] theorem latchOperands_status (bytes : List Byte) (s : State) : (latchOperands bytes s).status = s.status := by cases bytes <;> rfl
@[simp] theorem latchOperands_faultKind (bytes : List Byte) (s : State) : (latchOperands bytes s).faultKind = s.faultKind := by cases bytes <;> rfl
@[simp] theorem latchOperands_faultPc (bytes : List Byte) (s : State) : (latchOperands bytes s).faultPc = s.faultPc := by cases bytes <;> rfl
@[simp] theorem latchOperands_faultIrValid (bytes : List Byte) (s : State) : (latchOperands bytes s).faultIrValid = s.faultIrValid := by cases bytes <;> rfl
@[simp] theorem latchOperands_faultIr (bytes : List Byte) (s : State) : (latchOperands bytes s).faultIr = s.faultIr := by cases bytes <;> rfl
@[simp] theorem latchOperands_faultInfo (bytes : List Byte) (s : State) : (latchOperands bytes s).faultInfo = s.faultInfo := by cases bytes <;> rfl
@[simp] theorem latchOperands_out (bytes : List Byte) (s : State) : (latchOperands bytes s).out = s.out := by cases bytes <;> rfl
@[simp] theorem latchOperands_mem (bytes : List Byte) (s : State) : (latchOperands bytes s).mem = s.mem := by cases bytes <;> rfl
@[simp] theorem latchOperands_ir (bytes : List Byte) (s : State) : (latchOperands bytes s).ir = s.ir := by cases bytes <;> rfl
@[simp] theorem latchOperands_bt (bytes : List Byte) (s : State) : (latchOperands bytes s).bt = s.bt := by cases bytes <;> rfl
@[simp] theorem latchOperands_loadOpen (bytes : List Byte) (s : State) : (latchOperands bytes s).loadOpen = s.loadOpen := by cases bytes <;> rfl
@[simp] theorem latchOperands_reg (bytes : List Byte) (s : State) (q : Fin 8) : (latchOperands bytes s).reg q = s.reg q := by cases bytes <;> rfl
@[simp] theorem latchOperands_cell (bytes : List Byte) (s : State) (addr : Nat) : (latchOperands bytes s).cell addr = s.cell addr := by cases bytes <;> rfl
@[simp] theorem latchOperands_faultRecord (bytes : List Byte) (s : State) : (latchOperands bytes s).faultRecord = s.faultRecord := by cases bytes <;> rfl

@[simp] theorem latchOpcode_ir (ir : Byte) (rest : List Byte) (s : State) : (latchOpcode (ir :: rest) s).ir = ir := rfl

end Sys2Proof.Machine
end

