-- ==== Sys2Proof/Laws/Ops.lean ====
section
/-! SUPPORT. One specification lemma per shared operation: registers, memory accesses, operands, the ending of an instruction. -/

namespace Sys2Proof.Machine

/-! ## Numbers -/

@[simp] theorem trunc8_toNat (v : Nat) : (trunc8 v).toNat = v % 256 := BitVec.toNat_ofNat v 8

@[simp] theorem zext9_toNat (v : Byte) : (zext9 v).toNat = v.toNat := by
  simp only [zext9, BitVec.toNat_setWidth]
  have := v.isLt
  omega

@[simp] theorem spDec_toNat (v : Byte) : (spDec v).toNat = (v.toNat + 255) % 256 := trunc8_toNat _

@[simp] theorem spInc_toNat (v : Byte) : (spInc v).toNat = (v.toNat + 1) % 256 := trunc8_toNat _

@[simp] theorem spInc_spDec (v : Byte) : spInc (spDec v) = v := by
  apply BitVec.eq_of_toNat_eq
  have := v.isLt
  simp only [spInc_toNat, spDec_toNat]
  omega

/-- A stack access is always inside the memory (spec/20_memory.md R52). -/
theorem byte_lt_memSize (v : Byte) : v.toNat < memSize := v.isLt

theorem pushSlot_lt (s : State) : pushSlot s < memSize := byte_lt_memSize _

/-- The incremented pc as a number, while it fits the 9 bits. -/
theorem advancePc_toNat (n : Nat) (s : State) (h : s.pc.toNat + n + 1 < 512) :
    (advancePc n s).pc.toNat = s.pc.toNat + n + 1 := by
  simp only [advancePc_pc, BitVec.toNat_add, BitVec.toNat_ofNat]
  omega

/-! ## Registers -/

@[simp] theorem reg_setReg_same (r : Fin 8) (v : Byte) (s : State) : (s.setReg r v).reg r = v := by
  simp [State.reg, State.setReg]

theorem reg_setReg_other {r q : Fin 8} (v : Byte) (s : State) (h : q ≠ r) : (s.setReg r v).reg q = s.reg q := by
  have : r.val ≠ q.val := fun e => h (Fin.ext e.symm)
  simp [State.reg, State.setReg, this]

theorem reg_setReg (r q : Fin 8) (v : Byte) (s : State) :
    (s.setReg r v).reg q = if q = r then v else s.reg q := by
  split
  · rename_i h
    subst h
    exact reg_setReg_same q v s
  · rename_i h
    exact reg_setReg_other v s h

@[simp] theorem pushSp_reg_sp (s : State) : (pushSp s).reg sp = spDec (s.reg sp) := reg_setReg_same _ _ s

theorem pushSp_reg (s : State) (q : Fin 8) : (pushSp s).reg q = if q = sp then spDec (s.reg sp) else s.reg q :=
  reg_setReg sp q _ s

/-! ## Operands -/

/-- An operand byte 0..7 names its register. -/
theorem regOperand_ok {b : Byte} (h : b.toNat < 8) : regOperand b = .ok ⟨b.toNat, h⟩ := by simp [regOperand, h]

/-- Any other operand byte raises. -/
theorem regOperand_error {b : Byte} (h : 8 ≤ b.toNat) : regOperand b = .error (.registerIndexOutOfRange b) := by
  simp [regOperand, Nat.not_lt.mpr h]

theorem returnAddress_ok {s : State} (h : s.pc.toNat + 2 ≤ 0xFF) : returnAddress s = .ok (trunc8 (s.pc.toNat + 2)) := by
  simp [returnAddress, Nat.not_lt.mpr h]

theorem returnAddress_error {s : State} (h : 0xFF < s.pc.toNat + 2) :
    returnAddress s = .error (.outOfRangeAddress (s.pc.toNat + 2)) := by simp [returnAddress, h]

/-! ## Memory accesses -/

theorem memRead_ok {addr : Nat} (s : State) (h : addr < memSize) : memRead addr s = .ok (s.cell addr) := by
  simp [memRead, h]

theorem memRead_error {addr : Nat} (s : State) (h : memSize ≤ addr) :
    memRead addr s = .error (.outOfRangeAddress addr) := by simp [memRead, Nat.not_lt.mpr h]

theorem memWrite_ok {addr : Nat} (v : Byte) (s : State) (h : addr < memSize) :
    memWrite addr v s = .ok { s with mem := s.mem.store addr v } := by simp [memWrite, h]

theorem memWrite_error {addr : Nat} (v : Byte) (s : State) (h : memSize ≤ addr) :
    memWrite addr v s = .error (.outOfRangeAddress addr) := by simp [memWrite, Nat.not_lt.mpr h]

/-! ## The ending of an instruction -/

@[simp] theorem complete_ok (s t : State) : complete s (.ok t) = .next t := rfl

@[simp] theorem complete_error (s : State) (c : FaultCause) : complete s (.error c) = .next (takeFault true c s) := rfl

/-- An instruction always ends in a next state: its result, or the fault taken. -/
theorem complete_cases {s t : State} {result : Except FaultCause State} (h : complete s result = .next t) :
    result = .ok t ∨ ∃ c, result = .error c ∧ t = takeFault true c s := by
  cases result with
  | ok u => exact .inl (by simpa using h)
  | error c => exact .inr ⟨c, rfl, by simpa using h.symm⟩

/-! ## The ALU -/

theorem aluOp_ok (f : Byte → Byte → Byte) {a b : Byte} (s : State) (ha : a.toNat < 8) (hb : b.toNat < 8) :
    aluOp f a b s =
      .ok (advancePc 2 (s.setReg ⟨a.toNat, ha⟩ (f (s.reg ⟨a.toNat, ha⟩) (s.reg ⟨b.toNat, hb⟩)))) := by
  simp only [aluOp, regOperand_ok ha, regOperand_ok hb]
  rfl

theorem aluOp_error_a (f : Byte → Byte → Byte) {a : Byte} (b : Byte) (s : State) (ha : 8 ≤ a.toNat) :
    aluOp f a b s = .error (.registerIndexOutOfRange a) := by
  simp only [aluOp, regOperand_error ha]
  rfl

theorem aluOp_error_b (f : Byte → Byte → Byte) {a b : Byte} (s : State) (ha : a.toNat < 8) (hb : 8 ≤ b.toNat) :
    aluOp f a b s = .error (.registerIndexOutOfRange b) := by
  simp only [aluOp, regOperand_ok ha, regOperand_error hb]
  rfl

end Sys2Proof.Machine
end

