-- ==== Sys2Proof/Laws/Exec.lean ====
section
/-! SUPPORT. What each meaning answers: one lemma per instruction where it completes and one per fault it takes. -/

namespace Sys2Proof.Machine

theorem execAdd_ok {a b : Byte} (s : State) (ha : a.toNat < 8) (hb : b.toNat < 8) :
    execAdd a b s = .next (advancePc 2 (s.setReg ⟨a.toNat, ha⟩ (aluAdd (s.reg ⟨a.toNat, ha⟩) (s.reg ⟨b.toNat, hb⟩)))) := by
  rw [execAdd, aluOp_ok aluAdd s ha hb, complete_ok]

theorem execAdd_fault_a {a : Byte} (b : Byte) (s : State) (ha : 8 ≤ a.toNat) :
    execAdd a b s = .next (takeFault true (.registerIndexOutOfRange a) s) := by
  rw [execAdd, aluOp_error_a aluAdd b s ha, complete_error]

theorem execAdd_fault_b {a b : Byte} (s : State) (ha : a.toNat < 8) (hb : 8 ≤ b.toNat) :
    execAdd a b s = .next (takeFault true (.registerIndexOutOfRange b) s) := by
  rw [execAdd, aluOp_error_b aluAdd s ha hb, complete_error]

theorem execSub_ok {a b : Byte} (s : State) (ha : a.toNat < 8) (hb : b.toNat < 8) :
    execSub a b s = .next (advancePc 2 (s.setReg ⟨a.toNat, ha⟩ (aluSub (s.reg ⟨a.toNat, ha⟩) (s.reg ⟨b.toNat, hb⟩)))) := by
  rw [execSub, aluOp_ok aluSub s ha hb, complete_ok]

theorem execSub_fault_a {a : Byte} (b : Byte) (s : State) (ha : 8 ≤ a.toNat) :
    execSub a b s = .next (takeFault true (.registerIndexOutOfRange a) s) := by
  rw [execSub, aluOp_error_a aluSub b s ha, complete_error]

theorem execSub_fault_b {a b : Byte} (s : State) (ha : a.toNat < 8) (hb : 8 ≤ b.toNat) :
    execSub a b s = .next (takeFault true (.registerIndexOutOfRange b) s) := by
  rw [execSub, aluOp_error_b aluSub s ha hb, complete_error]

theorem execMul_ok {a b : Byte} (s : State) (ha : a.toNat < 8) (hb : b.toNat < 8) :
    execMul a b s = .next (advancePc 2 (s.setReg ⟨a.toNat, ha⟩ (aluMul (s.reg ⟨a.toNat, ha⟩) (s.reg ⟨b.toNat, hb⟩)))) := by
  rw [execMul, aluOp_ok aluMul s ha hb, complete_ok]

theorem execMul_fault_a {a : Byte} (b : Byte) (s : State) (ha : 8 ≤ a.toNat) :
    execMul a b s = .next (takeFault true (.registerIndexOutOfRange a) s) := by
  rw [execMul, aluOp_error_a aluMul b s ha, complete_error]

theorem execMul_fault_b {a b : Byte} (s : State) (ha : a.toNat < 8) (hb : 8 ≤ b.toNat) :
    execMul a b s = .next (takeFault true (.registerIndexOutOfRange b) s) := by
  rw [execMul, aluOp_error_b aluMul s ha hb, complete_error]

theorem execHlt_ok (s : State) : execHlt s = .next { advancePc 0 s with status := .halted } := rfl

theorem execLdi_ok {a : Byte} (imm : Byte) (s : State) (ha : a.toNat < 8) :
    execLdi a imm s = .next (advancePc 2 (s.setReg ⟨a.toNat, ha⟩ imm)) := by
  simp only [execLdi, regOperand_ok ha]
  rfl

theorem execLdi_fault {a : Byte} (imm : Byte) (s : State) (ha : 8 ≤ a.toNat) :
    execLdi a imm s = .next (takeFault true (.registerIndexOutOfRange a) s) := by
  simp only [execLdi, regOperand_error ha]
  rfl

theorem execPrn_ok {a : Byte} (s : State) (ha : a.toNat < 8) :
    execPrn a s = .next (advancePc 1 { s with out := s.out ++ [s.reg ⟨a.toNat, ha⟩] }) := by
  simp only [execPrn, regOperand_ok ha]
  rfl

theorem execPrn_fault {a : Byte} (s : State) (ha : 8 ≤ a.toNat) :
    execPrn a s = .next (takeFault true (.registerIndexOutOfRange a) s) := by
  simp only [execPrn, regOperand_error ha]
  rfl

/-- The state after a push of the byte `v` at `s`: SP decremented, the cell it addresses written. -/
def pushed (v : Byte) (s : State) : State := { pushSp s with mem := s.mem.store (pushSlot s) v }

theorem execPush_ok {a : Byte} (s : State) (ha : a.toNat < 8) :
    execPush a s = .next (advancePc 1 (pushed ((pushSp s).reg ⟨a.toNat, ha⟩) s)) := by
  simp only [execPush, regOperand_ok ha, bind, Except.bind, memWrite_ok _ _ (pushSlot_lt s), pure, Except.pure]
  rfl

theorem execPush_fault {a : Byte} (s : State) (ha : 8 ≤ a.toNat) :
    execPush a s = .next (takeFault true (.registerIndexOutOfRange a) s) := by
  simp only [execPush, regOperand_error ha]
  rfl

theorem execPop_ok {a : Byte} (s : State) (ha : a.toNat < 8) :
    execPop a s = .next (advancePc 1
      ((s.setReg ⟨a.toNat, ha⟩ (s.cell (s.reg sp).toNat)).setReg sp
        (spInc ((s.setReg ⟨a.toNat, ha⟩ (s.cell (s.reg sp).toNat)).reg sp)))) := by
  simp only [execPop, regOperand_ok ha, bind, Except.bind, memRead_ok _ (byte_lt_memSize (s.reg sp)), pure, Except.pure]
  rfl

theorem execPop_fault {a : Byte} (s : State) (ha : 8 ≤ a.toNat) :
    execPop a s = .next (takeFault true (.registerIndexOutOfRange a) s) := by
  simp only [execPop, regOperand_error ha]
  rfl

theorem execCall_ok {a : Byte} (s : State) (ha : a.toNat < 8) (hp : s.pc.toNat + 2 ≤ 0xFF) :
    execCall a s = .next (branchTo ((pushSp s).reg ⟨a.toNat, ha⟩) (pushed (trunc8 (s.pc.toNat + 2)) s)) := by
  simp only [execCall, regOperand_ok ha, returnAddress_ok hp, bind, Except.bind, memWrite_ok _ _ (pushSlot_lt s), pure,
    Except.pure]
  rfl

theorem execCall_fault_a {a : Byte} (s : State) (ha : 8 ≤ a.toNat) :
    execCall a s = .next (takeFault true (.registerIndexOutOfRange a) s) := by
  simp only [execCall, regOperand_error ha]
  rfl

theorem execCall_fault_pc {a : Byte} (s : State) (ha : a.toNat < 8) (hp : 0xFF < s.pc.toNat + 2) :
    execCall a s = .next (takeFault true (.outOfRangeAddress (s.pc.toNat + 2)) s) := by
  simp only [execCall, regOperand_ok ha, returnAddress_error hp]
  rfl

theorem execRet_ok (s : State) :
    execRet s = .next (branchTo (s.cell (s.reg sp).toNat) (s.setReg sp (spInc (s.reg sp)))) := by
  simp only [execRet, bind, Except.bind, memRead_ok _ (byte_lt_memSize (s.reg sp)), pure, Except.pure]
  rfl

/-! ## Every instruction

Whatever the instruction and the state, `exec` completes or takes one fault: these two relations say with what result and
for what reason, and `exec_cases` that there is nothing else. -/

/-- The instruction at `s` completes, and `t` is its whole result. -/
inductive Completed : Instr → State → State → Prop where
  | hlt (s : State) : Completed .hlt s { advancePc 0 s with status := .halted }
  | ldi {a : Byte} (imm : Byte) (s : State) (ha : a.toNat < 8) :
      Completed (.ldi a imm) s (advancePc 2 (s.setReg ⟨a.toNat, ha⟩ imm))
  | prn {a : Byte} (s : State) (ha : a.toNat < 8) :
      Completed (.prn a) s (advancePc 1 { s with out := s.out ++ [s.reg ⟨a.toNat, ha⟩] })
  | push {a : Byte} (s : State) (ha : a.toNat < 8) :
      Completed (.push a) s (advancePc 1 (pushed ((pushSp s).reg ⟨a.toNat, ha⟩) s))
  | pop {a : Byte} (s : State) (ha : a.toNat < 8) :
      Completed (.pop a) s (advancePc 1
        ((s.setReg ⟨a.toNat, ha⟩ (s.cell (s.reg sp).toNat)).setReg sp
          (spInc ((s.setReg ⟨a.toNat, ha⟩ (s.cell (s.reg sp).toNat)).reg sp))))
  | call {a : Byte} (s : State) (ha : a.toNat < 8) (hp : s.pc.toNat + 2 ≤ 0xFF) :
      Completed (.call a) s (branchTo ((pushSp s).reg ⟨a.toNat, ha⟩) (pushed (trunc8 (s.pc.toNat + 2)) s))
  | ret (s : State) :
      Completed .ret s (branchTo (s.cell (s.reg sp).toNat) (s.setReg sp (spInc (s.reg sp))))
  | add {a b : Byte} (s : State) (ha : a.toNat < 8) (hb : b.toNat < 8) :
      Completed (.add a b) s
        (advancePc 2 (s.setReg ⟨a.toNat, ha⟩ (aluAdd (s.reg ⟨a.toNat, ha⟩) (s.reg ⟨b.toNat, hb⟩))))
  | sub {a b : Byte} (s : State) (ha : a.toNat < 8) (hb : b.toNat < 8) :
      Completed (.sub a b) s
        (advancePc 2 (s.setReg ⟨a.toNat, ha⟩ (aluSub (s.reg ⟨a.toNat, ha⟩) (s.reg ⟨b.toNat, hb⟩))))
  | mul {a b : Byte} (s : State) (ha : a.toNat < 8) (hb : b.toNat < 8) :
      Completed (.mul a b) s
        (advancePc 2 (s.setReg ⟨a.toNat, ha⟩ (aluMul (s.reg ⟨a.toNat, ha⟩) (s.reg ⟨b.toNat, hb⟩))))

/-- The instruction at `s` raises `c`. -/
inductive Raises : Instr → State → FaultCause → Prop where
  | ldi {a : Byte} (imm : Byte) (s : State) (ha : 8 ≤ a.toNat) : Raises (.ldi a imm) s (.registerIndexOutOfRange a)
  | prn {a : Byte} (s : State) (ha : 8 ≤ a.toNat) : Raises (.prn a) s (.registerIndexOutOfRange a)
  | push {a : Byte} (s : State) (ha : 8 ≤ a.toNat) : Raises (.push a) s (.registerIndexOutOfRange a)
  | pop {a : Byte} (s : State) (ha : 8 ≤ a.toNat) : Raises (.pop a) s (.registerIndexOutOfRange a)
  | call {a : Byte} (s : State) (ha : 8 ≤ a.toNat) : Raises (.call a) s (.registerIndexOutOfRange a)
  | callReturn {a : Byte} (s : State) (ha : a.toNat < 8) (hp : 0xFF < s.pc.toNat + 2) :
      Raises (.call a) s (.outOfRangeAddress (s.pc.toNat + 2))
  | addA {a : Byte} (b : Byte) (s : State) (ha : 8 ≤ a.toNat) : Raises (.add a b) s (.registerIndexOutOfRange a)
  | addB {a b : Byte} (s : State) (ha : a.toNat < 8) (hb : 8 ≤ b.toNat) : Raises (.add a b) s (.registerIndexOutOfRange b)
  | subA {a : Byte} (b : Byte) (s : State) (ha : 8 ≤ a.toNat) : Raises (.sub a b) s (.registerIndexOutOfRange a)
  | subB {a b : Byte} (s : State) (ha : a.toNat < 8) (hb : 8 ≤ b.toNat) : Raises (.sub a b) s (.registerIndexOutOfRange b)
  | mulA {a : Byte} (b : Byte) (s : State) (ha : 8 ≤ a.toNat) : Raises (.mul a b) s (.registerIndexOutOfRange a)
  | mulB {a b : Byte} (s : State) (ha : a.toNat < 8) (hb : 8 ≤ b.toNat) : Raises (.mul a b) s (.registerIndexOutOfRange b)

/-- Everything `exec` can do. -/
theorem exec_cases (i : Instr) (s : State) :
    (∃ t, exec i s = .next t ∧ Completed i s t) ∨ (∃ c, exec i s = .next (takeFault true c s) ∧ Raises i s c) := by
  cases i with
  | hlt => exact .inl ⟨_, execHlt_ok s, .hlt s⟩
  | ret => exact .inl ⟨_, execRet_ok s, .ret s⟩
  | ldi a imm =>
    obtain ha | ha := Nat.lt_or_ge a.toNat 8
    · exact .inl ⟨_, execLdi_ok imm s ha, .ldi imm s ha⟩
    · exact .inr ⟨_, execLdi_fault imm s ha, .ldi imm s ha⟩
  | prn a =>
    obtain ha | ha := Nat.lt_or_ge a.toNat 8
    · exact .inl ⟨_, execPrn_ok s ha, .prn s ha⟩
    · exact .inr ⟨_, execPrn_fault s ha, .prn s ha⟩
  | push a =>
    obtain ha | ha := Nat.lt_or_ge a.toNat 8
    · exact .inl ⟨_, execPush_ok s ha, .push s ha⟩
    · exact .inr ⟨_, execPush_fault s ha, .push s ha⟩
  | pop a =>
    obtain ha | ha := Nat.lt_or_ge a.toNat 8
    · exact .inl ⟨_, execPop_ok s ha, .pop s ha⟩
    · exact .inr ⟨_, execPop_fault s ha, .pop s ha⟩
  | call a =>
    obtain ha | ha := Nat.lt_or_ge a.toNat 8
    · obtain hp | hp := Nat.lt_or_ge 0xFF (s.pc.toNat + 2)
      · exact .inr ⟨_, execCall_fault_pc s ha hp, .callReturn s ha hp⟩
      · exact .inl ⟨_, execCall_ok s ha hp, .call s ha hp⟩
    · exact .inr ⟨_, execCall_fault_a s ha, .call s ha⟩
  | add a b =>
    obtain ha | ha := Nat.lt_or_ge a.toNat 8
    · obtain hb | hb := Nat.lt_or_ge b.toNat 8
      · exact .inl ⟨_, execAdd_ok s ha hb, .add s ha hb⟩
      · exact .inr ⟨_, execAdd_fault_b s ha hb, .addB s ha hb⟩
    · exact .inr ⟨_, execAdd_fault_a b s ha, .addA b s ha⟩
  | sub a b =>
    obtain ha | ha := Nat.lt_or_ge a.toNat 8
    · obtain hb | hb := Nat.lt_or_ge b.toNat 8
      · exact .inl ⟨_, execSub_ok s ha hb, .sub s ha hb⟩
      · exact .inr ⟨_, execSub_fault_b s ha hb, .subB s ha hb⟩
    · exact .inr ⟨_, execSub_fault_a b s ha, .subA b s ha⟩
  | mul a b =>
    obtain ha | ha := Nat.lt_or_ge a.toNat 8
    · obtain hb | hb := Nat.lt_or_ge b.toNat 8
      · exact .inl ⟨_, execMul_ok s ha hb, .mul s ha hb⟩
      · exact .inr ⟨_, execMul_fault_b s ha hb, .mulB s ha hb⟩
    · exact .inr ⟨_, execMul_fault_a b s ha, .mulA b s ha⟩

/-- Inversion of `exec`: its answer is the whole result of the instruction, or the fault it raises, taken. -/
theorem exec_inv {i : Instr} {s t : State} (h : exec i s = .next t) :
    Completed i s t ∨ ∃ c, Raises i s c ∧ t = takeFault true c s := by
  obtain ⟨u, hu, hc⟩ | ⟨c, hc, hr⟩ := exec_cases i s
  · rw [hu] at h
    cases h
    exact .inl hc
  · rw [hc] at h
    cases h
    exact .inr ⟨c, hr, rfl⟩

/-- An instruction that raises is ill-formed, or a CALL whose return address is no address. -/
theorem Raises.reason {i : Instr} {s : State} {c : FaultCause} (h : Raises i s c) :
    i.wf = false ∨ ∃ a, i = .call a ∧ 0xFF < s.pc.toNat + 2 := by
  cases h with
  | callReturn s ha hp => exact .inr ⟨_, rfl, hp⟩
  | _ => exact .inl (by simp_all [Instr.wf, namesRegister])

/-- An instruction that completes is well-formed, and a CALL's return address is an address. -/
theorem Completed.reason {i : Instr} {s t : State} (h : Completed i s t) :
    i.wf = true ∧ ((∃ a, i = .call a) → s.pc.toNat + 2 ≤ 0xFF) := by
  cases h <;> simp_all [Instr.wf, namesRegister]

/-- Only HLT changes STATUS when it completes. -/
theorem Completed.status {i : Instr} {s t : State} (h : Completed i s t) :
    t.status = if i = .hlt then .halted else s.status := by
  cases h <;> simp [pushed]

/-- No instruction that completes writes the fault record. -/
theorem Completed.faultRecord {i : Instr} {s t : State} (h : Completed i s t) : t.faultRecord = s.faultRecord := by
  cases h <;> rfl

/-- No instruction that completes touches the load port. -/
theorem Completed.loadOpen {i : Instr} {s t : State} (h : Completed i s t) : t.loadOpen = s.loadOpen := by
  cases h <;> rfl

/-- Every instruction keeps the memory canonical. -/
theorem Completed.memory {i : Instr} {s t : State} (h : Completed i s t) (hw : s.mem.wf = true) : t.mem.wf = true := by
  cases h <;> first | exact hw | exact Memory.wf_store _ (pushSlot_lt s) hw

end Sys2Proof.Machine
end

