-- ==== Sys2Proof/Laws/PerInstr.lean ====
section
/-! SUPPORT. Facts about every instruction as syntax, one lemma per constructor. -/

namespace Sys2Proof.Laws.Length

/-- An instruction's encoding is as long as its opcode byte says: `IR[7:6] + 1` bytes (spec/30_encoding.md R91). -/
def Statement (i : Instr) : Prop :=
  ∀ m : OpcodeMap, m.Admissible → (encodeWith m i).length = operandCount (i.opcode m) + 1

theorem hlt : Statement .hlt := by
  intro m h
  simp only [encodeWith, Instr.operands, Instr.opcode, h.1.1]
  decide

theorem ldi (a imm : Byte) : Statement (.ldi a imm) := by
  intro m h
  simp only [encodeWith, Instr.operands, Instr.opcode, h.1.2.1]
  rfl

theorem prn (a : Byte) : Statement (.prn a) := by
  intro m h
  simp only [encodeWith, Instr.operands, Instr.opcode, h.1.2.2]
  rfl

theorem push (a : Byte) : Statement (.push a) := fun _ h => by simp [encodeWith, Instr.operands, Instr.opcode, h.2.2.1.1.1]

theorem pop (a : Byte) : Statement (.pop a) := fun _ h => by simp [encodeWith, Instr.operands, Instr.opcode, h.2.2.1.2.1]

theorem call (a : Byte) : Statement (.call a) := fun _ h => by simp [encodeWith, Instr.operands, Instr.opcode, h.2.2.2.1.1]

theorem ret : Statement .ret := fun _ _ => by simp [encodeWith, Instr.operands, Instr.opcode]

theorem add (a b : Byte) : Statement (.add a b) := fun _ h => by simp [encodeWith, Instr.operands, Instr.opcode, h.2.1.1.1]

theorem sub (a b : Byte) : Statement (.sub a b) := fun _ h => by simp [encodeWith, Instr.operands, Instr.opcode, h.2.1.2.1.1]

theorem mul (a b : Byte) : Statement (.mul a b) := fun _ h => by simp [encodeWith, Instr.operands, Instr.opcode, h.2.1.2.2.1]

end Sys2Proof.Laws.Length
end

