-- ==== Sys2Proof/Laws/Step.lean ====
section
/-! SUPPORT. What a step fetches and what it can answer. -/

namespace Sys2Proof.Machine

/-! ## The bytes fetched -/

theorem readBytes_zero (addr : Nat) (s : State) : readBytes 0 addr s = [] := rfl

theorem readBytes_inside (k : Nat) {addr : Nat} (s : State) (h : addr < memSize) :
    readBytes (k + 1) addr s = s.cell addr :: readBytes k (addr + 1) s := by
  simp only [readBytes, memRead_ok s h]

theorem readBytes_outside (k : Nat) {addr : Nat} (s : State) (h : memSize ≤ addr) : readBytes k addr s = [] := by
  cases k with
  | zero => rfl
  | succ k => simp only [readBytes, memRead_error s h]

/-- The fetch reads as many bytes as there are, three at most. -/
theorem readBytes_length (k addr : Nat) (s : State) : (readBytes k addr s).length = min k (memSize - addr) := by
  induction k generalizing addr with
  | zero => simp [readBytes]
  | succ k ih =>
    obtain h | h := Nat.lt_or_ge addr memSize
    · simp only [readBytes_inside k s h, List.length_cons, ih]
      omega
    · simp only [readBytes_outside _ s h, List.length_nil]
      omega

/-- The k-th byte fetched is the cell k above the start. -/
theorem readBytes_getD (k addr j : Nat) (d : Byte) (s : State) (h : j < min k (memSize - addr)) :
    (readBytes k addr s).getD j d = s.cell (addr + j) := by
  induction k generalizing addr j with
  | zero => simp at h
  | succ k ih =>
    have hin : addr < memSize := by omega
    rw [readBytes_inside k s hin]
    cases j with
    | zero => simp
    | succ j =>
      rw [List.getD_cons_succ, ih (addr + 1) j (by omega)]
      congr 1
      omega

theorem fetchBytes_empty {s : State} (h : 0xFF < s.pc.toNat) : fetchBytes s = [] :=
  readBytes_outside _ s (by simp only [memSize]; omega)

/-- The fetch at an address of the memory: the opcode and the bytes after it that exist. -/
theorem fetchBytes_cons {s : State} (h : s.pc.toNat ≤ 0xFF) :
    fetchBytes s = s.cell s.pc.toNat :: readBytes 2 (s.pc.toNat + 1) s :=
  readBytes_inside 2 s (by simp only [memSize]; omega)

/-! ## The state after the fetch -/

@[simp] theorem afterOpcodeFetch_observe (s : State) : observe (afterOpcodeFetch s) = observe s := by
  simp [observe, afterOpcodeFetch]

@[simp] theorem afterOpcodeFetch_reg (s : State) (r : Fin 8) : (afterOpcodeFetch s).reg r = s.reg r := by
  simp [afterOpcodeFetch]

@[simp] theorem afterOpcodeFetch_cell (s : State) (addr : Nat) : (afterOpcodeFetch s).cell addr = s.cell addr := by
  simp [afterOpcodeFetch]

@[simp] theorem afterOpcodeFetch_mem (s : State) : (afterOpcodeFetch s).mem = s.mem := by
  simp [afterOpcodeFetch]

@[simp] theorem afterOpcodeFetch_pc (s : State) : (afterOpcodeFetch s).pc = s.pc := by
  simp [afterOpcodeFetch]

@[simp] theorem afterOpcodeFetch_out (s : State) : (afterOpcodeFetch s).out = s.out := by
  simp [afterOpcodeFetch]

@[simp] theorem afterOpcodeFetch_bt (s : State) : (afterOpcodeFetch s).bt = s.bt := by
  simp [afterOpcodeFetch]

@[simp] theorem afterOpcodeFetch_status (s : State) : (afterOpcodeFetch s).status = s.status := by
  simp [afterOpcodeFetch]

@[simp] theorem afterOpcodeFetch_loadOpen (s : State) : (afterOpcodeFetch s).loadOpen = false := by
  simp [afterOpcodeFetch]

@[simp] theorem afterOpcodeFetch_faultRecord (s : State) : (afterOpcodeFetch s).faultRecord = s.faultRecord := by
  simp [afterOpcodeFetch]

/-- IR holds the byte at pc as soon as it is fetched. -/
theorem afterOpcodeFetch_ir {s : State} (h : s.pc.toNat ≤ 0xFF) : (afterOpcodeFetch s).ir = s.cell s.pc.toNat := by
  simp [afterOpcodeFetch, fetchBytes_cons h]

@[simp] theorem afterFetch_observe (s : State) : observe (afterFetch s) = observe s := by
  simp [observe, afterFetch, afterOpcodeFetch]

@[simp] theorem afterFetch_reg (s : State) (r : Fin 8) : (afterFetch s).reg r = s.reg r := by
  simp [afterFetch, afterOpcodeFetch]

@[simp] theorem afterFetch_cell (s : State) (addr : Nat) : (afterFetch s).cell addr = s.cell addr := by
  simp [afterFetch, afterOpcodeFetch]

@[simp] theorem afterFetch_mem (s : State) : (afterFetch s).mem = s.mem := by simp [afterFetch, afterOpcodeFetch]

@[simp] theorem afterFetch_pc (s : State) : (afterFetch s).pc = s.pc := by simp [afterFetch, afterOpcodeFetch]

@[simp] theorem afterFetch_out (s : State) : (afterFetch s).out = s.out := by simp [afterFetch, afterOpcodeFetch]

@[simp] theorem afterFetch_bt (s : State) : (afterFetch s).bt = s.bt := by simp [afterFetch, afterOpcodeFetch]

@[simp] theorem afterFetch_status (s : State) : (afterFetch s).status = s.status := by
  simp [afterFetch, afterOpcodeFetch]

@[simp] theorem afterFetch_loadOpen (s : State) : (afterFetch s).loadOpen = false := by
  simp [afterFetch, afterOpcodeFetch]

@[simp] theorem afterFetch_faultRecord (s : State) : (afterFetch s).faultRecord = s.faultRecord := by
  simp [afterFetch, afterOpcodeFetch]

/-- IR holds the byte at pc. -/
theorem afterFetch_ir {s : State} (h : s.pc.toNat ≤ 0xFF) : (afterFetch s).ir = s.cell s.pc.toNat := by
  simp [afterFetch, afterOpcodeFetch_ir h]

/-! ## Decoding what was fetched -/

/-- The decoder at an address of the memory: the verdict on the byte at pc decides. -/
theorem decode_fetch_op {m : OpcodeMap} {s : State} {o : Op} (hp : s.pc.toNat ≤ 0xFF)
    (ho : classify m (s.cell s.pc.toNat) = .op o) (hn : operandCount (s.cell s.pc.toNat) ≤ 2)
    (hin : s.pc.toNat + operandCount (s.cell s.pc.toNat) ≤ 0xFF) :
    ∃ a b rest, decodeWith m (fetchBytes s) = .ok (o.instr a b, rest) ∧
      (1 ≤ operandCount (s.cell s.pc.toNat) → a = s.cell (s.pc.toNat + 1)) ∧
      (2 ≤ operandCount (s.cell s.pc.toNat) → b = s.cell (s.pc.toNat + 2)) := by
  have hlen := readBytes_length 2 (s.pc.toNat + 1) s
  have hsize : memSize = 256 := rfl
  refine ⟨(readBytes 2 (s.pc.toNat + 1) s).getD 0 0, (readBytes 2 (s.pc.toNat + 1) s).getD 1 0,
    (readBytes 2 (s.pc.toNat + 1) s).drop (operandCount (s.cell s.pc.toNat)), ?_, fun h => ?_, fun h => ?_⟩
  · rw [fetchBytes_cons hp]
    exact decodeWith_op ho (by omega)
  · exact readBytes_getD 2 (s.pc.toNat + 1) 0 0 s (by omega)
  · exact readBytes_getD 2 (s.pc.toNat + 1) 1 0 s (by omega)

/-- An operand byte past the top of memory: the decoder names the one at address 0x100. -/
theorem decode_fetch_missing {m : OpcodeMap} {s : State} {o : Op} (hp : s.pc.toNat ≤ 0xFF)
    (ho : classify m (s.cell s.pc.toNat) = .op o) (hn : operandCount (s.cell s.pc.toNat) ≤ 2)
    (hout : 0xFF < s.pc.toNat + operandCount (s.cell s.pc.toNat)) :
    ∃ k, decodeWith m (fetchBytes s) = .error (.missingOperand k) ∧ s.pc.toNat + k = 0x100 := by
  have hlen := readBytes_length 2 (s.pc.toNat + 1) s
  have hsize : memSize = 256 := rfl
  refine ⟨(readBytes 2 (s.pc.toNat + 1) s).length + 1, ?_, by omega⟩
  rw [fetchBytes_cons hp]
  simp only [decodeWith, ho, decodeOperands]
  rw [if_pos (by omega)]

/-- Bytes that decode were fetched inside the memory. -/
theorem pc_of_decode_fetch {m : OpcodeMap} {s : State} {i : Instr} {rest : List Byte}
    (h : decodeWith m (fetchBytes s) = .ok (i, rest)) : s.pc.toNat ≤ 0xFF := by
  by_contra hn
  rw [fetchBytes_empty (by omega)] at h
  cases h

/-- What a successful decoding of the fetched bytes says of the memory at pc. -/
theorem decode_fetch_inv {m : OpcodeMap} {s : State} {i : Instr} {rest : List Byte}
    (h : decodeWith m (fetchBytes s) = .ok (i, rest)) :
    ∃ o a b, i = o.instr a b ∧ classify m (s.cell s.pc.toNat) = .op o ∧
      s.pc.toNat + operandCount (s.cell s.pc.toNat) ≤ 0xFF ∧
      (1 ≤ operandCount (s.cell s.pc.toNat) → a = s.cell (s.pc.toNat + 1)) ∧
      (2 ≤ operandCount (s.cell s.pc.toNat) → b = s.cell (s.pc.toNat + 2)) := by
  have hp := pc_of_decode_fetch h
  have hlen := readBytes_length 2 (s.pc.toNat + 1) s
  have hsize : memSize = 256 := rfl
  obtain ⟨ir, tail, o, hb, ho, hn, rfl, -⟩ := decodeWith_ok h
  rw [fetchBytes_cons hp] at hb
  cases hb
  exact ⟨o, _, _, rfl, ho, by omega, fun h => readBytes_getD 2 _ 0 _ s (by omega),
    fun h => readBytes_getD 2 _ 1 _ s (by omega)⟩

/-! ## The step -/

theorem stepWith_ended (m : OpcodeMap) {s : State} (h : s.status ≠ .running) : stepWith m s = .next s := by
  unfold stepWith
  cases hs : s.status <;> simp_all

/-- A running step whose bytes decode runs the instruction. -/
theorem stepWith_ok {m : OpcodeMap} {s : State} {i : Instr} {rest : List Byte} (hs : s.status = .running)
    (hd : decodeWith m (fetchBytes s) = .ok (i, rest)) : stepWith m s = exec i (afterFetch s) := by
  simp only [stepWith, hs, hd]

/-- A running step whose bytes do not decode takes the fault. -/
theorem stepWith_error {m : OpcodeMap} {s : State} {r : Reject} (hs : s.status = .running)
    (hd : decodeWith m (fetchBytes s) = .error r) : stepWith m s = .next (takeReject r (afterOpcodeFetch s)) := by
  simp only [stepWith, hs, hd]

/-- Everything a step can do: nothing, since the run has ended; take the fault of bytes that are no instruction; complete
an instruction; take the fault it raises. -/
theorem stepWith_inv {m : OpcodeMap} {s t : State} (h : stepWith m s = .next t) :
    (s.status ≠ .running ∧ t = s) ∨
    (s.status = .running ∧ ∃ r, decodeWith m (fetchBytes s) = .error r ∧ t = takeReject r (afterOpcodeFetch s)) ∨
    (s.status = .running ∧ ∃ i rest, decodeWith m (fetchBytes s) = .ok (i, rest) ∧
      (Completed i (afterFetch s) t ∨ ∃ c, Raises i (afterFetch s) c ∧ t = takeFault true c (afterFetch s))) := by
  by_cases hs : s.status = .running
  · cases hd : decodeWith m (fetchBytes s) with
    | error r =>
      rw [stepWith_error hs hd] at h
      cases h
      exact .inr (.inl ⟨hs, r, rfl, rfl⟩)
    | ok p =>
      obtain ⟨i, rest⟩ := p
      rw [stepWith_ok hs hd] at h
      exact .inr (.inr ⟨hs, i, rest, rfl, exec_inv h⟩)
  · rw [stepWith_ended m hs] at h
    cases h
    exact .inl ⟨hs, rfl⟩

end Sys2Proof.Machine
end

