-- ==== Sys2Proof/Tests/Slice0.lean ====
section
/-! SUPPORT. Tests of the model on small states, and a witness for the hypotheses of every statement that has some.
Expected results come from spec/95_test_vectors.md (the vector is named) or from the encoding tables of spec/30_encoding.md. -/

namespace Sys2Proof.Tests

open Sys2Proof.Machine

/-! ## Helpers -/

/-- The next state of an outcome, if there is one. -/
def after (o : Host.Outcome State Fault Refusal) : Option State :=
  match o with
  | .next t => some t
  | .fault _ => none
  | .refused _ => none

/-- The reset state with bytes from an address on, and pc there. -/
def at_ (p : Nat) (bytes : List Byte) : State :=
  { State.reset with mem := Memory.storeBytes [] p bytes, pc := BitVec.ofNat 9 p }

/-- STATUS, the fault record and pc after a step that should fault. -/
def faultSeen (s : State) : Option (Status × FaultRecord × PcWord) :=
  (after (step s)).map fun t => (t.status, t.faultRecord, t.pc)

/-- The default map. -/
abbrev M : OpcodeMap := OpcodeMap.defaultMap

/-! ## Well-formedness -/

theorem test_wf_refuses_ldi_register_8 : (Instr.ldi 8 1).wf = false := by decide
theorem test_wf_refuses_prn_register_255 : (Instr.prn 255).wf = false := by decide
theorem test_wf_refuses_push_register_8 : (Instr.push 8).wf = false := by decide
theorem test_wf_refuses_pop_register_8 : (Instr.pop 8).wf = false := by decide
theorem test_wf_refuses_call_register_9 : (Instr.call 9).wf = false := by decide
theorem test_wf_refuses_add_register_a : (Instr.add 8 0).wf = false := by decide
theorem test_wf_refuses_add_register_b : (Instr.add 0 9).wf = false := by decide
theorem test_wf_refuses_sub_register_a : (Instr.sub 8 0).wf = false := by decide
theorem test_wf_refuses_sub_register_b : (Instr.sub 0 8).wf = false := by decide
theorem test_wf_refuses_mul_register_a : (Instr.mul 8 0).wf = false := by decide
theorem test_wf_refuses_mul_register_b : (Instr.mul 0 8).wf = false := by decide
theorem test_wf_accepts_register_7_and_any_immediate : (Instr.ldi 7 255).wf = true ∧ (Instr.add 7 7).wf = true := by decide

def hltMoved : OpcodeMap := { M with hlt := 0x02 }
def addNotAlu : OpcodeMap := { M with add := 0x80 }
def pushSetsPc : OpcodeMap := { M with push := 0x55 }
def callKeepsPc : OpcodeMap := { M with call := 0x40 }
def retWithThreeOperands : OpcodeMap := { M with ret := 0xD1 }
def popIsPush : OpcodeMap := { M with pop := 0x45 }

/-- The default map is admissible; each of the other maps breaks one constraint of R84. -/
theorem test_admissible_refuses_broken_maps :
    M.Admissible ∧ ¬hltMoved.Admissible ∧ ¬addNotAlu.Admissible ∧ ¬pushSetsPc.Admissible ∧ ¬callKeepsPc.Admissible ∧
    ¬retWithThreeOperands.Admissible ∧ ¬popIsPush.Admissible :=
  ⟨by decide, by decide, by decide, by decide, by decide, by decide, by decide⟩

theorem test_memory_wf_refuses_unsorted_outside_and_zero :
    Memory.wf [(3, 1), (2, 1)] = false ∧ Memory.wf [(2, 1), (2, 3)] = false ∧ Memory.wf [(256, 1)] = false ∧
    Memory.wf [(2, 0)] = false ∧ Memory.wf [(0, 1), (255, 2)] = true := by decide

theorem test_storing_zero_removes_the_cell : (Memory.store [(2, 1), (5, 7)] 2 0) = [(5, 7)] := by decide

/-! ## Decoding: words written out from the table of spec/30_encoding.md R85, bit by bit -/

theorem test_decode_hlt : decode [0b00000001, 0x55] = .ok (.hlt, [0x55]) := rfl
theorem test_decode_ldi : decode [0b10000010, 0b00000000, 0b00001000] = .ok (.ldi 0 8, []) := rfl
theorem test_decode_prn : decode [0b01000111, 0b00000000] = .ok (.prn 0, []) := rfl
theorem test_decode_push : decode [0b01000101, 0b00000001, 0x55] = .ok (.push 1, [0x55]) := rfl
theorem test_decode_pop : decode [0b01000110, 0b00000111] = .ok (.pop 7, []) := rfl
theorem test_decode_call : decode [0b01010000, 0b00000001] = .ok (.call 1, []) := rfl
theorem test_decode_ret : decode [0b00010001] = .ok (.ret, []) := rfl
theorem test_decode_add : decode [0b10100000, 0b00000011, 0b00000101] = .ok (.add 3 5, []) := rfl
theorem test_decode_sub : decode [0b10100001, 0b00000010, 0b00000110] = .ok (.sub 2 6, []) := rfl
theorem test_decode_mul : decode [0b10100010, 0b00000100, 0b00000001, 0x77] = .ok (.mul 4 1, [0x77]) := rfl

/-- 95_test_vectors.md section 2.1: the illegal bytes of its table. -/
theorem test_classify_illegal_bytes :
    ([0x00, 0x02, 0xC0] : List Byte).map (classify M) = [.illegalNamed, .illegalNamed, .illegalNamed] ∧
    ([0x20, 0xA3, 0xA8, 0xB0, 0xE0, 0xFF] : List Byte).map (classify M) =
      [.illegalAlu, .illegalAlu, .illegalAlu, .illegalAlu, .illegalAlu, .illegalAlu] := by decide

theorem test_decode_rejects_by_name :
    decode [] = .error .noOpcode ∧ decode [0x00] = .error .unrecognizedOpcode ∧
    decode [0xFF, 0, 0] = .error .unsupportedAluOperation ∧ decode [0x47] = .error (.missingOperand 1) ∧
    decode [0x82, 0x00] = .error (.missingOperand 2) := ⟨rfl, rfl, rfl, rfl, rfl⟩

theorem test_table_words :
    ([0x01, 0x82, 0x47, 0x45, 0x46, 0x50, 0x11, 0xA0, 0xA1, 0xA2] : List Nat).map (decodeTableWord 8) =
      [some .hlt, some (.ldi 0 0), some (.prn 0), some (.push 0), some (.pop 0), some (.call 0), some .ret,
       some (.add 0 0), some (.sub 0 0), some (.mul 0 0)] := by decide

theorem test_table_word_second_byte_is_operand_a : decodeTableWord 24 0x080582 = some (.ldi 5 8) := by decide

theorem test_encode : encode (.sub 1 2) = [0xA1, 1, 2] ∧ encode .ret = [0x11] := by decide

/-! ## One step of each instruction -/

/-- Vector A1. -/
theorem test_add_wraps :
    (after (step { at_ 0 [0xA0, 0, 1] with regs := #v[255, 2, 0, 0, 0, 0, 0, 0xF4] })).map
      (fun t => (t.regs, t.pc, t.status)) = some (#v[1, 2, 0, 0, 0, 0, 0, 0xF4], 3, .running) := by decide

/-- Vector A12: B above 7 faults, A is unchanged. -/
theorem test_add_register_9_faults :
    faultSeen (at_ 0 [0xA0, 0, 9]) =
      some (.faulted, { kind := .registerIndexOutOfRange, pc := 0, irValid := true, ir := 0xA0, info := 9 }, 0) := by decide

/-- Vector A5. -/
theorem test_sub_wraps :
    (after (step { at_ 0 [0xA1, 0, 1] with regs := #v[3, 5, 0, 0, 0, 0, 0, 0xF4] })).map (fun t => (t.regs, t.pc)) =
      some (#v[0xFE, 5, 0, 0, 0, 0, 0, 0xF4], 3) := by decide

/-- Vector A10: one register twice. -/
theorem test_mul_squares :
    (after (step { at_ 0 [0xA2, 4, 4] with regs := #v[0, 0, 0, 0, 15, 0, 0, 0xF4] })).map (fun t => (t.regs, t.pc)) =
      some (#v[0, 0, 0, 0, 0xE1, 0, 0, 0xF4], 3) := by decide

/-- Vector N2: HLT in the last byte halts with pc = 0x100 and no fault. -/
theorem test_hlt_at_the_top :
    (after (step (at_ 0xFF [0x01]))).map (fun t => (t.status, t.pc, t.faultRecord)) =
      some (.halted, 0x100, noFault) := by decide

/-- Vector N4. -/
theorem test_ldi_sets_sp :
    (after (step (at_ 0 [0x82, 7, 0x10]))).map (fun t => (t.regs, t.pc)) =
      some (#v[0, 0, 0, 0, 0, 0, 0, 0x10], 3) := by decide

/-- Vector N7. -/
theorem test_prn_outputs_sp :
    (after (step (at_ 0 [0x47, 7]))).map (fun t => (t.out, t.pc)) = some ([0xF4], 2) := by decide

/-- Vector N9. -/
theorem test_prn_register_255_faults :
    faultSeen (at_ 0 [0x47, 0xFF]) =
      some (.faulted, { kind := .registerIndexOutOfRange, pc := 0, irValid := true, ir := 0x47, info := 0xFF }, 0) := by
  decide

/-- Vector S2: SP wraps from 0x00 to 0xFF. -/
theorem test_push_wraps_sp :
    (after (step { at_ 0 [0x45, 1] with regs := #v[0, 0xAB, 0, 0, 0, 0, 0, 0] })).map
      (fun t => (t.reg 7, t.cell 0xFF, t.pc)) = some (0xFF, 0xAB, 2) := by decide

/-- Vector S3: R7 is stored after the decrement. -/
theorem test_push_r7_stores_the_decremented_sp :
    (after (step (at_ 0 [0x45, 7]))).map (fun t => (t.reg 7, t.cell 0xF3)) = some (0xF3, 0xF3) := by decide

/-- Vector S5. -/
theorem test_pop_wraps_sp :
    (after (step { at_ 0 [0x46, 2] with
        regs := #v[0, 0, 0, 0, 0, 0, 0, 0xFF], mem := [(0, 0x46), (1, 2), (0xFF, 0x42)] })).map
      (fun t => (t.reg 2, t.reg 7, t.pc)) = some (0x42, 0, 2) := by decide

/-- Vector S6: R7 is incremented after the popped byte is written to it. -/
theorem test_pop_r7_increments_the_popped_byte :
    (after (step { at_ 0 [0x46, 7] with
        regs := #v[0, 0, 0, 0, 0, 0, 0, 0xF3], mem := [(0, 0x46), (1, 7), (0xF3, 0x20)] })).map (fun t => t.reg 7) =
      some 0x21 := by decide

/-- Vector C1. -/
theorem test_call_stores_the_return_address :
    (after (step { at_ 6 [0x50, 1] with regs := #v[0, 0x0B, 0, 0, 0, 0, 0, 0xF4] })).map
      (fun t => (t.reg 7, t.cell 0xF3, t.pc)) = some (0xF3, 8, 0x0B) := by decide

/-- Vector C4: the register check comes before the return-address check. -/
theorem test_call_register_9_at_fe_faults :
    faultSeen (at_ 0xFE [0x50, 9]) =
      some (.faulted, { kind := .registerIndexOutOfRange, pc := 0xFE, irValid := true, ir := 0x50, info := 9 }, 0xFE) := by
  decide

/-- Vector C3. -/
theorem test_call_at_fe_faults :
    faultSeen (at_ 0xFE [0x50, 1]) =
      some (.faulted, { kind := .outOfRangeAddress, pc := 0xFE, irValid := true, ir := 0x50, info := 0x100 }, 0xFE) := by
  decide

/-- Vector C7: RET in the last byte needs no operand. -/
theorem test_ret_at_the_top :
    (after (step { at_ 0xFF [0x11] with
        regs := #v[0, 0, 0, 0, 0, 0, 0, 0xF3], mem := [(0xF3, 5), (0xFF, 0x11)] })).map
      (fun t => (t.pc, t.reg 7, t.status)) = some (5, 0xF4, .running) := by decide

/-! ## The sequencer's faults -/

/-- Vector F1. -/
theorem test_fetch_at_100_faults :
    faultSeen { State.reset with pc := 0x100 } =
      some (.faulted, { kind := .outOfRangeAddress, pc := 0x100, irValid := false, ir := 0, info := 0x100 }, 0x100) := by
  decide

/-- Vector F3. -/
theorem test_unrecognized_opcode :
    faultSeen (at_ 0 [0xC0]) =
      some (.faulted, { kind := .unrecognizedOpcode, pc := 0, irValid := true, ir := 0xC0, info := 0 }, 0) := by decide

/-- Vector F7: the verdict precedes the operand fetch. -/
theorem test_unsupported_alu_operation_at_the_top :
    faultSeen (at_ 0xFF [0xA3]) =
      some (.faulted, { kind := .unsupportedAluOperation, pc := 0xFF, irValid := true, ir := 0xA3, info := 0 }, 0xFF) := by
  decide

/-- Vector F8: the operand fetch precedes the register check. -/
theorem test_operand_fetch_precedes_the_register_check :
    faultSeen (at_ 0xFE [0xA0, 9]) =
      some (.faulted, { kind := .outOfRangeAddress, pc := 0xFE, irValid := true, ir := 0xA0, info := 0x100 }, 0xFE) := by
  decide

/-- A halted machine takes no step (R111). -/
theorem test_halted_machine_stays : step { State.reset with status := .halted } = .next { State.reset with status := .halted } :=
  rfl

/-! ## The host's ports -/

/-- The word placed by `withFetchWord` at reset is the image the load port would write (notes/assumptions/8.md). -/
theorem test_fetch_word_is_the_loaded_image :
    after (loadImage [0x82, 5, 8] State.reset) = some (State.reset.withFetchWord 24 0x080582) := by decide

theorem test_fetch_word_runs_first :
    (after (step (State.reset.withFetchWord 24 0x080582))).map (fun t => (t.reg 5, t.pc)) = some (8, 3) := by decide

/-- `withFetchWord` drops the bytes that would lie past the top of memory. -/
theorem test_fetch_word_at_the_top :
    (({ State.reset with pc := 0xFF } : State).withFetchWord 24 0x020101).mem = [(0xFF, 1)] := by decide

theorem test_load_after_a_step_faults :
    (after (step (at_ 0 [0x01]))).map (fun t => t.loadOpen) = some false ∧
    loadImage [1] { State.reset with loadOpen := false } = .fault .loadPortClosed := ⟨by decide, rfl⟩

/-! ## Witnesses: the hypotheses of each statement, met together by concrete data -/

/-- A small image: `CALL R0` at 0, `PUSH R1` at 2, `ADD R0, R1` at 4. -/
def small : State := at_ 0 [0x50, 0, 0x45, 1, 0xA0, 0, 1]

theorem default_admissible : M.Admissible := by decide

/-- A map other than the default that R84 admits: RET with two operand bytes, PUSH and POP exchanged. -/
def otherMap : OpcodeMap := { M with ret := 0x91, push := 0x46, pop := 0x45 }

theorem other_admissible : otherMap.Admissible := by decide

/-- `Fetches` at an address that holds an opcode. -/
theorem fetches_at (p : Nat) (bytes : List Byte) (ir : Byte) (hp : (at_ p bytes).pc.toNat ≤ 0xFF)
    (h : (at_ p bytes).cell (at_ p bytes).pc.toNat = ir) : Fetches (at_ p bytes) ir := ⟨rfl, hp, h⟩

theorem witness_ImageLoadWritesTheImage : State.reset.loadOpen = true ∧ State.reset.mem.wf = true ∧
    (List.replicate 256 (1 : Byte)).length ≤ 256 ∧ 256 < (List.replicate 257 (1 : Byte)).length :=
  ⟨rfl, rfl, List.length_replicate.le, List.length_replicate.ge⟩
theorem witness_FirstStepClosesTheLoadPort : small.status = .running ∧ ∃ t, stepWith M small = .next t := ⟨rfl, _, rfl⟩
theorem witness_NoStepUnlessRunning_halted : ({ small with status := .halted } : State).status ≠ .running := by decide
theorem witness_NoStepUnlessRunning_faulted : ({ small with status := .faulted } : State).status ≠ .running := by decide
theorem witness_EndedMachineStaysAsItIs : ({ small with status := .faulted } : State).status ≠ .running := by decide
theorem witness_StatusAndFaultCodes : (511 : Nat) < 512 ∧ ({ small with status := .faulted } : State).status = .faulted := by
  decide
theorem witness_RegistersHoldValuesModulo256 : (7 : Fin 8) ≠ 6 ∧ (6 : Fin 8).val < 7 := by decide
theorem witness_MemoryAccessRule : small.mem.wf = true ∧ 255 ≤ 255 ∧ 255 < 256 := by decide
theorem witness_CanonicalMemories : Memory.wf [(0, 1), (255, 2)] = true ∧
    (∀ addr, Memory.lookup [(0, 1), (255, 2)] addr = Memory.lookup [(0, 1), (255, 2)] addr) := ⟨by decide, fun _ => rfl⟩
theorem witness_EveryByteIsClassified : otherMap.Admissible ∧ classify otherMap 0x91 = .op .ret ∧
    classify otherMap 0x20 = .illegalAlu ∧ classify otherMap 0x11 = .illegalNamed := by decide
theorem witness_LengthIsDecidedByTheFirstByte :
    decodeWith otherMap [0x91, 7, 8, 9] = .ok (.ret, [9]) ∧ decodeWith M [0x82, 7, 8] = .ok (.ldi 7 8, []) := ⟨rfl, rfl⟩
theorem witness_DecodeOfEncode : M.Admissible ∧ otherMap.Admissible := by decide
theorem witness_EncodeOfDecode : decode [0xA2, 255, 8, 3] = .ok (.mul 255 8, [3]) := rfl
theorem witness_StepRunsTheDecodedInstruction : (at_ 0xFD [0xA0, 0, 255]).status = .running ∧
    decodeWith M (fetchBytes (at_ 0xFD [0xA0, 0, 255])) = .ok (.add 0 255, []) := ⟨rfl, rfl⟩
theorem witness_OpcodeFetchPastTheTopFaults : ({ small with pc := 0x100 } : State).status = .running ∧
    ({ small with pc := 0x100 } : State).pc = 0x100 := ⟨rfl, rfl⟩
theorem witness_IllegalOpcodesAreFatal_named :
    Fetches (at_ 0xFF [0xC0]) 0xC0 ∧ isAluOp 0xC0 = false ∧ (0xC0 : Byte) ∉ M.bytes :=
  ⟨fetches_at 0xFF _ _ (by decide) (by decide), by decide, by decide⟩
theorem witness_IllegalOpcodesAreFatal_alu : Fetches (at_ 0 [0xFF]) 0xFF ∧ isAluOp 0xFF = true ∧ (0xFF : Byte) ∉ M.bytes :=
  ⟨fetches_at 0 _ _ (by decide) (by decide), by decide, by decide⟩
theorem witness_OperandFetchPastTheTopFaults : M.Admissible ∧ Fetches (at_ 0xFF [0x47]) 0x47 ∧ classify M 0x47 = .op .prn ∧
    0xFF < (at_ 0xFF [0x47]).pc.toNat + operandCount 0x47 :=
  ⟨default_admissible, fetches_at 0xFF _ _ (by decide) (by decide), by decide, by decide⟩
theorem witness_FaultsArePrecise : ∃ t, (at_ 0 [0xA0, 0, 9]).status = .running ∧ stepWith M (at_ 0 [0xA0, 0, 9]) = .next t ∧
    t.status = .faulted := ⟨_, rfl, rfl, rfl⟩
theorem witness_StepReportsTheFirstFault : M.Admissible ∧ (at_ 0xFE [0x50, 9]).status = .running ∧
    Sequencer.firstFault M (at_ 0xFE [0x50, 9]) = some (.registerIndexOutOfRange 9) ∧
    Sequencer.firstFault M (at_ 0xFE [0x50, 1]) = some (.outOfRangeAddress 0x100) ∧
    Sequencer.firstFault M (at_ 0xFD [0x50, 1]) = none := by decide
theorem witness_PcAdvancesByTheOpcodeFields : ∃ t, M.Admissible ∧ Fetches (at_ 0xFD [0xA0, 0, 1]) 0xA0 ∧
    stepWith M (at_ 0xFD [0xA0, 0, 1]) = .next t ∧ t.status ≠ .faulted ∧ setsPc 0xA0 = false :=
  ⟨_, default_admissible, fetches_at 0xFD _ _ (by decide) (by decide), rfl, by decide, by decide⟩
theorem witness_PcAdvancesByTheOpcodeFields_branch : ∃ t, M.Admissible ∧ Fetches (at_ 0xFF [0x11]) 0x11 ∧
    stepWith M (at_ 0xFF [0x11]) = .next t ∧ t.status ≠ .faulted ∧ setsPc 0x11 = true :=
  ⟨_, default_admissible, fetches_at 0xFF _ _ (by decide) (by decide), rfl, by decide, by decide⟩
theorem witness_OnlyHltHalts : ∃ t, M.Admissible ∧ Fetches (at_ 0xFF [0x01]) 0x01 ∧ stepWith M (at_ 0xFF [0x01]) = .next t ∧
    t.status = .halted := ⟨_, default_admissible, fetches_at 0xFF _ _ (by decide) (by decide), rfl, rfl⟩
theorem witness_StepIsTheSpecsSequencer : M.Admissible ∧ otherMap.Admissible := by decide
theorem witness_TransientRegistersAreNeverObserved : observe small = observe { small with ir := 0xFF, opA := 9, opB := 3, bt := 7 } :=
  rfl
theorem witness_StepWritesOnlyTheListedRegisters_destination : ∃ t, M.Admissible ∧ Fetches (at_ 0 [0x82, 6, 9]) 0x82 ∧
    stepWith M (at_ 0 [0x82, 6, 9]) = .next t ∧ t.reg 6 ≠ (at_ 0 [0x82, 6, 9]).reg 6 :=
  ⟨_, default_admissible, fetches_at 0 _ _ (by decide) (by decide), rfl, by decide⟩
theorem witness_StepWritesOnlyTheListedRegisters_sp : ∃ t, M.Admissible ∧ Fetches (at_ 0 [0x11]) 0x11 ∧
    stepWith M (at_ 0 [0x11]) = .next t ∧ t.reg sp ≠ (at_ 0 [0x11]).reg sp :=
  ⟨_, default_admissible, fetches_at 0 _ _ (by decide) (by decide), rfl, by decide⟩
theorem witness_StepWritesOnlyTheStackSlot : ∃ t, M.Admissible ∧ Fetches (at_ 0 [0x45, 7]) 0x45 ∧
    stepWith M (at_ 0 [0x45, 7]) = .next t ∧ t.cell 0xF3 ≠ (at_ 0 [0x45, 7]).cell 0xF3 :=
  ⟨_, default_admissible, fetches_at 0 _ _ (by decide) (by decide), rfl, by decide⟩
theorem witness_OnlyPrnAppendsToOut : ∃ t, M.Admissible ∧ Fetches (at_ 0 [0x47, 7]) 0x47 ∧
    stepWith M (at_ 0 [0x47, 7]) = .next t := ⟨_, default_admissible, fetches_at 0 _ _ (by decide) (by decide), rfl⟩
/-- Vector S10: the pushed byte is the next opcode. -/
theorem witness_PushedByteIsFetchedNext :
    let s := { at_ 0 [0x45, 0] with regs := #v[1, 0, 0, 0, 0, 0, 0, 3] }
    M.Admissible ∧ s.mem.wf = true ∧ Fetches s M.push ∧ s.pc.toNat + 1 ≤ 0xFF ∧ s.cell (s.pc.toNat + 1) = 0 ∧
      (0 : Byte).toNat < 8 ∧ pushSlot s = 2 := ⟨default_admissible, by decide, ⟨rfl, by decide, by decide⟩, by decide, by decide, by decide, by decide⟩

/-- The reset state meets every clause of the invariant that is not vacuous there. -/
theorem reset_inv : Inv State.reset where
  memory := rfl
  pcRange := by decide
  clearRecord := fun _ => rfl
  kindHeld := fun h => by cases h
  faultAtPc := fun h => by cases h
  fetchedIr := fun h => by cases h
  unfetchedIr := fun h => by cases h
  info := fun h => by cases h
  beforeRun := fun _ => rfl

/-- A faulted state that meets the invariant: vector C4's end. -/
theorem witness_Inv_faulted : ∃ t, step (at_ 0xFE [0x50, 9]) = .next t ∧ t.status = .faulted ∧ t.faultKind ≠ .none ∧
    t.faultPc = t.pc ∧ t.faultIrValid = true ∧ t.faultIr = t.cell t.pc.toNat ∧
    InfoMatchesKind t.faultKind t.faultInfo :=
  ⟨_, rfl, rfl, by decide, by decide, rfl, by decide, (by decide : 8 ≤ (9 : BitVec 9).toNat ∧ (9 : BitVec 9).toNat ≤ 255)⟩

theorem witness_StepKeepsTheInvariant : ∃ t, M.Admissible ∧ Inv State.reset ∧ stepWith M State.reset = .next t :=
  ⟨_, default_admissible, reset_inv, rfl⟩
theorem witness_ImageLoadKeepsTheInvariant : ∃ t, Inv State.reset ∧ loadImage [0x82, 0, 8] State.reset = .next t :=
  ⟨_, reset_inv, rfl⟩
theorem witness_ReachableStatesMeetTheInvariant : ∃ s t, M.Admissible ∧ Reachable M s ∧ stepWith M s = .next t ∧
    Reachable M t :=
  ⟨_, _, default_admissible, .load [0x82, 0, 8] .reset rfl, rfl, .step (.load [0x82, 0, 8] .reset rfl) rfl⟩

theorem witness_AluRule_registers : (0 : Byte).toNat < 8 ∧ (7 : Byte).toNat < 8 ∧ 8 ≤ (8 : Byte).toNat ∧
    8 ≤ (255 : Byte).toNat := by decide
theorem witness_AddWritesTheSum_fetch : M.Admissible ∧ Fetches (at_ 0xFE [0xA0, 9]) M.add ∧ 0xFE ≤ (at_ 0xFE [0xA0, 9]).pc.toNat :=
  ⟨default_admissible, fetches_at 0xFE _ _ (by decide) (by decide), by decide⟩
theorem witness_SubWritesTheDifference_fetch : M.Admissible ∧ Fetches (at_ 0xFF [0xA1]) M.sub ∧ 0xFE ≤ (at_ 0xFF [0xA1]).pc.toNat :=
  ⟨default_admissible, fetches_at 0xFF _ _ (by decide) (by decide), by decide⟩
theorem witness_MulWritesTheLowByte_fetch : M.Admissible ∧ Fetches (at_ 0xFE [0xA2, 0]) M.mul ∧ 0xFE ≤ (at_ 0xFE [0xA2, 0]).pc.toNat :=
  ⟨default_admissible, fetches_at 0xFE _ _ (by decide) (by decide), by decide⟩
theorem witness_HltHaltsAfterThePcUpdate : M.Admissible ∧ Fetches (at_ 0xFF [0x01]) M.hlt :=
  ⟨default_admissible, fetches_at 0xFF _ _ (by decide) (by decide)⟩
/-- The register bytes of LDI, PRN, PUSH and POP at both ends of both ranges. -/
theorem witness_register_operands : (0 : Byte).toNat < 8 ∧ (7 : Byte).toNat < 8 ∧ 8 ≤ (8 : Byte).toNat ∧
    8 ≤ (255 : Byte).toNat ∧ small.mem.wf = true := by decide
theorem witness_CallStoresTheReturnAddress : (7 : Byte).toNat < 8 ∧ (at_ 0xFD [0x50, 7]).mem.wf = true ∧
    (at_ 0xFD [0x50, 7]).pc.toNat + 2 ≤ 0xFF ∧ 0xFF < (at_ 0xFE [0x50, 7]).pc.toNat + 2 := by decide
theorem witness_StackIsAddressedBySp : (0 : Byte).toNat < 8 ∧ (0 : Byte) ≠ 7 ∧ small.mem.wf = true ∧
    small.pc.toNat + 2 ≤ 0xFF ∧
    (({ small with regs := #v[0, 0, 0, 0, 0, 0, 0, 0] } : State).reg sp).toNat = 0 ∧
    (({ small with regs := #v[0, 0, 0, 0, 0, 0, 0, 255] } : State).reg sp).toNat = 255 := by decide
theorem witness_PushThenPopRestoresEveryRegister : (7 : Byte).toNat < 8 ∧ small.mem.wf = true := by decide
theorem witness_RetResumesAfterTheCall : (0 : Byte).toNat < 8 ∧ small.mem.wf = true ∧ small.pc.toNat + 2 ≤ 0xFF := by decide
/-- The state between the calls can be the very state the first CALL leaves. -/
theorem witness_NestedCallsReturnInLifoOrder : ∃ t t', exec (.call 0) small = .next t ∧ t.pc.toNat + 2 ≤ 0xFF ∧
    exec (.call 0) t = .next t' ∧ small.mem.wf = true := ⟨_, _, rfl, by decide, rfl, by decide⟩
theorem witness_FrameOfLdiAndTheAlu : ∃ t t', exec (.add 0 1) small = .next t ∧ (Instr.add 0 1).wf = true ∧
    exec (.sub 0 8) small = .next t' ∧ (Instr.sub 0 8).wf = false := ⟨_, _, rfl, by decide, rfl, by decide⟩
theorem witness_FrameOfHltAndPrn : ∃ t t' t'', exec .hlt small = .next t ∧ exec (.prn 7) small = .next t' ∧
    (Instr.prn 7).wf = true ∧ exec (.prn 8) small = .next t'' ∧ (Instr.prn 8).wf = false :=
  ⟨_, _, _, rfl, rfl, by decide, rfl, by decide⟩
theorem witness_FrameOfPopAndRet : ∃ t t' t'', exec .ret small = .next t ∧ exec (.pop 7) small = .next t' ∧
    (Instr.pop 7).wf = true ∧ exec (.pop 8) small = .next t'' ∧ (Instr.pop 8).wf = false :=
  ⟨_, _, _, rfl, rfl, by decide, rfl, by decide⟩
theorem witness_FrameOfPushAndCall : ∃ t t' t'', exec (.push 1) small = .next t ∧ pushSlot small = 0xF3 ∧
    exec (.call 1) (at_ 0xFD []) = .next t' ∧ (Instr.call 1).wf = true ∧ (at_ 0xFD []).pc.toNat + 2 ≤ 0xFF ∧
    exec (.call 1) (at_ 0xFE []) = .next t'' ∧ 0xFF < (at_ 0xFE []).pc.toNat + 2 :=
  ⟨_, _, _, rfl, by decide, rfl, by decide, by decide, rfl, by decide⟩

end Sys2Proof.Tests
end

section
/-! PROOFS. The statements of spec/10_state.md: the memory and the registers at reset, and what a register keeps. -/

namespace Sys2Proof.Machine

/-! ## The reset state -/

/-- Reset lists no cell, so every address reads as an unlisted one (R33, R240). -/
@[simp] theorem reset_cell (addr : Nat) : State.reset.cell addr = 0 := Memory.lookup_nil addr

/-- The register column of the reset table (R240). -/
theorem reset_reg (r : Fin 8) : State.reset.reg r = if r = sp then 0xF4 else 0 := by
  revert r
  decide

theorem reset_reg_sp : State.reset.reg sp = 0xF4 := reset_reg sp

theorem reset_reg_other {r : Fin 8} (h : r ≠ sp) : State.reset.reg r = 0 := (reset_reg r).trans (if_neg h)

/-! ## The statements -/

/-- Settles O2: a read inside the memory answers the cell, and every cell is 0 at reset; a read outside it raises. -/
theorem memoryIs256CellsZeroAtReset : Obligations.MemoryIs256CellsZeroAtReset := by
  unfold Obligations.MemoryIs256CellsZeroAtReset
  constructor
  · intro addr h
    rw [memRead_ok State.reset (Nat.lt_succ_of_le h), reset_cell]
  · intro addr h
    exact memRead_error State.reset h

/-- Settles O3: a register reads back the byte last written to it, `trunc8` keeps a number modulo 256, and only the
stack pointer is not 0 at reset. -/
theorem registersHoldValuesModulo256 : Obligations.RegistersHoldValuesModulo256 := by
  unfold Obligations.RegistersHoldValuesModulo256
  refine ⟨?_, ?_, ?_, reset_reg_sp⟩
  · intro r v s
    rw [reg_setReg_same, trunc8_toNat]
  · intro r q v s h
    exact reg_setReg_other v s h
  · intro r h
    have hne : r ≠ sp := Fin.ne_of_val_ne (Nat.ne_of_lt h)
    exact reset_reg_other hne

end Sys2Proof.Machine
end

section
/-! PROOFS. The statements of spec/20_memory.md: the memory accesses, and the stack addressed through SP. -/

namespace Sys2Proof.Machine

/-! ## A write and the cells after it (R51) -/

/-- The cell at the address of a write is the byte written. -/
theorem cell_store_same (addr : Nat) (v : Byte) {s : State} (hw : s.mem.wf = true) :
    ({ s with mem := s.mem.store addr v } : State).cell addr = v :=
  Memory.lookup_store_same addr v hw

/-- A write leaves the cell at every other address alone. -/
theorem cell_store_other {addr other : Nat} (v : Byte) (s : State) (h : other ≠ addr) :
    ({ s with mem := s.mem.store addr v } : State).cell other = s.cell other :=
  Memory.lookup_store_other s.mem v h

/-! ## SP as a number (R59)

The remainder modulo 256 of the pseudocode, as the wrap at one end of the byte. -/

theorem spDec_toNat_wrap (v : Byte) : (spDec v).toNat = if v.toNat = 0 then 255 else v.toNat - 1 := by
  have := v.isLt
  rw [spDec_toNat]
  split <;> omega

theorem spInc_toNat_wrap (v : Byte) : (spInc v).toNat = if v.toNat = 255 then 0 else v.toNat + 1 := by
  have := v.isLt
  rw [spInc_toNat]
  split <;> omega

/-- An operand byte other than 7 names another register than SP. -/
theorem register_ne_sp {a : Byte} (ha : a.toNat < 8) (h : a ≠ 7) : (⟨a.toNat, ha⟩ : Fin 8) ≠ sp := by
  intro e
  have hval : a.toNat = 7 := congrArg Fin.val e
  exact h (BitVec.eq_of_toNat_eq hval)

/-! ## The state after a push -/

@[simp] theorem pushed_reg (v : Byte) (s : State) (q : Fin 8) : (pushed v s).reg q = (pushSp s).reg q := rfl

theorem pushed_sp_toNat (v : Byte) (s : State) :
    ((pushed v s).reg sp).toNat = if (s.reg sp).toNat = 0 then 255 else (s.reg sp).toNat - 1 := by
  rw [pushed_reg, pushSp_reg_sp, spDec_toNat_wrap]

/-- The slot of a push is the cell that SP addresses afterwards. -/
theorem pushed_sp_eq_pushSlot (v : Byte) (s : State) : ((pushed v s).reg sp).toNat = pushSlot s := by
  rw [pushed_reg, pushSp_reg_sp, pushSlot]

theorem pushed_cell_sp (v : Byte) {s : State} (hw : s.mem.wf = true) :
    (pushed v s).cell ((pushed v s).reg sp).toNat = v := by
  rw [pushed_sp_eq_pushSlot]
  exact cell_store_same (pushSlot s) v (s := pushSp s) hw

theorem pushed_cell_other (v : Byte) (s : State) {addr : Nat} (h : addr ≠ ((pushed v s).reg sp).toNat) :
    (pushed v s).cell addr = s.cell addr := by
  rw [pushed_sp_eq_pushSlot] at h
  exact cell_store_other v (pushSp s) h

/-! ## The ALU's results as numbers -/

theorem aluAdd_toNat (x y : Byte) : (aluAdd x y).toNat = (x.toNat + y.toNat) % 256 := trunc8_toNat _

theorem aluSub_toNat (x y : Byte) : (aluSub x y).toNat = (x.toNat + 256 - y.toNat) % 256 := trunc8_toNat _

theorem aluMul_toNat (x y : Byte) : (aluMul x y).toNat = x.toNat * y.toNat % 256 := trunc8_toNat _

/-- The operand byte 7 names SP. -/
theorem seven_lt : (7 : Byte).toNat < 8 := by decide

/-- An instruction whose destination is R7 leaves its result in SP. -/
theorem reg_sp_of_destination_seven (n : Nat) (v : Byte) (s : State) :
    (advancePc n (s.setReg ⟨(7 : Byte).toNat, seven_lt⟩ v)).reg sp = v :=
  reg_setReg_same sp v s

/-! ## The statements -/

/-- Settles O9: an access inside the memory reads or stores one cell, and any other raises before it touches anything. -/
theorem memoryAccessRule : Obligations.MemoryAccessRule := by
  unfold Obligations.MemoryAccessRule
  intro addr v s hw
  constructor
  · intro h
    have ha : addr < memSize := Nat.lt_succ_of_le h
    refine ⟨memRead_ok s ha, _, memWrite_ok v s ha, ?_, ?_, rfl⟩
    · rw [memRead_ok _ ha, cell_store_same addr v hw]
    · intro other hne
      exact cell_store_other v s hne
  · intro h
    exact ⟨memRead_error s h, memWrite_error v s h⟩

/-- Settles O50: PUSH and CALL end in a pushed state, POP and RET in one whose SP is incremented, and the instructions
that name R7 as their destination leave their result in SP. -/
theorem stackIsAddressedBySp : Obligations.StackIsAddressedBySp := by
  unfold Obligations.StackIsAddressedBySp
  refine ⟨reset_reg_sp, ?push, ?call, ?pop, ?ret, ?ldi, ?alu⟩
  case push =>
    intro a s ha hw
    refine ⟨_, execPush_ok s ha, ?_, ?_, fun _ => pushed_cell_other _ s⟩
    · rw [advancePc_reg, pushed_sp_toNat]
    · intro h7
      rw [advancePc_cell, advancePc_reg, pushed_cell_sp _ hw, pushSp, reg_setReg_other _ s (register_ne_sp ha h7)]
  case call =>
    intro a s ha hw hp
    refine ⟨_, execCall_ok s ha hp, ?_, ?_, fun _ => pushed_cell_other _ s⟩
    · rw [branchTo_reg, pushed_sp_toNat]
    · rw [branchTo_cell, branchTo_reg, pushed_cell_sp _ hw, trunc8_toNat, Nat.mod_eq_of_lt (Nat.lt_succ_of_le hp)]
  case pop =>
    intro a s ha h7
    have hne := register_ne_sp ha h7
    refine ⟨_, execPop_ok s ha, ?_, ?_⟩
    · rw [advancePc_reg, reg_setReg_other _ _ hne, reg_setReg_same]
    · rw [advancePc_reg, reg_setReg_same, reg_setReg_other _ _ hne.symm, spInc_toNat_wrap]
  case ret =>
    intro s
    refine ⟨_, execRet_ok s, zext9_toNat _, ?_⟩
    rw [branchTo_reg, reg_setReg_same, spInc_toNat_wrap]
  case ldi =>
    intro v s
    exact ⟨_, execLdi_ok v s seven_lt, reg_sp_of_destination_seven 2 v s⟩
  case alu =>
    intro b s hb
    refine ⟨⟨_, execAdd_ok s seven_lt hb, ?_⟩, ⟨_, execSub_ok s seven_lt hb, ?_⟩, ⟨_, execMul_ok s seven_lt hb, ?_⟩⟩
    · rw [reg_sp_of_destination_seven]
      exact aluAdd_toNat _ _
    · rw [reg_sp_of_destination_seven]
      exact aluSub_toNat _ _
    · rw [reg_sp_of_destination_seven]
      exact aluMul_toNat _ _

end Sys2Proof.Machine
end

section
/-! PROOFS. The statement of spec/30_encoding.md on length: the first byte alone decides how many bytes an instruction has. -/

namespace Sys2Proof

/-- Settles O16: a successful decoding drops the operand bytes that the first byte counts, and they were all there. -/
theorem lengthIsDecidedByTheFirstByte : Obligations.LengthIsDecidedByTheFirstByte := by
  unfold Obligations.LengthIsDecidedByTheFirstByte
  intro m bytes rest i h
  obtain ⟨ir, tail, -, rfl, -, hcount, -, rfl⟩ := decodeWith_ok h
  refine ⟨ir, tail, rfl, ?length, List.drop_succ_cons.symm⟩
  case length =>
    rw [List.length_cons, List.length_drop]
    omega

end Sys2Proof
end

section
/-! PROOFS. The statements of spec/30_encoding.md on the opcode byte, and the two directions between decoder and encoder. -/

namespace Sys2Proof

/-! ## An instruction as an operation with operand bytes (R83) -/

/-- The operation of an instruction. -/
def Instr.op : Instr → Op
  | .hlt => .hlt
  | .ldi _ _ => .ldi
  | .prn _ => .prn
  | .push _ => .push
  | .pop _ => .pop
  | .call _ => .call
  | .ret => .ret
  | .add _ _ => .add
  | .sub _ _ => .sub
  | .mul _ _ => .mul

@[simp] theorem Op.op_instr (o : Op) (a b : Byte) : (o.instr a b).op = o := by cases o <;> rfl

theorem Instr.opcode_eq_byte (m : OpcodeMap) (i : Instr) : i.opcode m = i.op.byte m := by cases i <;> rfl

/-- The operand bytes an instruction is encoded with make it again, whatever follows them. -/
theorem Instr.instr_operands (m : OpcodeMap) (i : Instr) (rest : List Byte) :
    i.op.instr ((i.operands m ++ rest).getD 0 0) ((i.operands m ++ rest).getD 1 0) = i := by cases i <;> rfl

/-- The length law of each constructor, as one statement about all instructions. -/
theorem OpcodeMap.Admissible.length_operands {m : OpcodeMap} (h : m.Admissible) (i : Instr) :
    (i.operands m).length = operandCount (i.opcode m) := by
  have hlen : Laws.Length.Statement i := by
    cases i with
    | hlt => exact Laws.Length.hlt
    | ldi a imm => exact Laws.Length.ldi a imm
    | prn a => exact Laws.Length.prn a
    | push a => exact Laws.Length.push a
    | pop a => exact Laws.Length.pop a
    | call a => exact Laws.Length.call a
    | ret => exact Laws.Length.ret
    | add a b => exact Laws.Length.add a b
    | sub a b => exact Laws.Length.sub a b
    | mul a b => exact Laws.Length.mul a b
  exact Nat.succ.inj (hlen m h)

/-- Settles O17: the opcode byte is classified as the instruction's operation, and the operand bytes are all there. -/
theorem decodeOfEncode : Obligations.DecodeOfEncode := by
  unfold Obligations.DecodeOfEncode
  intro m i rest h
  have hlen := h.length_operands i
  have hclass : classify m (i.opcode m) = .op i.op := by
    rw [Instr.opcode_eq_byte]
    exact h.classify_byte i.op
  have hcount : operandCount (i.opcode m) ≤ (i.operands m ++ rest).length := by
    rw [List.length_append]
    omega
  rw [encodeWith, List.cons_append, decodeWith_op hclass hcount, Instr.instr_operands, ← hlen, List.drop_left]

/-- Settles O12: R84 on ten known bytes. -/
theorem defaultMapIsAdmissible : Obligations.DefaultMapIsAdmissible := by
  unfold Obligations.DefaultMapIsAdmissible
  decide

/-- Under the default map an operation's count says how many of A and B are encoded. -/
theorem operands_default (o : Op) (a b : Byte) :
    (o.instr a b).operands OpcodeMap.defaultMap = [a, b].take (operandCount (o.byte OpcodeMap.defaultMap)) := by
  cases o <;> rfl

/-- The bytes read as A and B are the first two of a list, as far as it goes. -/
theorem take_getD : ∀ {n : Nat} {tail : List Byte}, n ≤ 2 → n ≤ tail.length →
    [tail.getD 0 0, tail.getD 1 0].take n = tail.take n
  | 0, _, _, _ => rfl
  | 1, _ :: _, _, _ => rfl
  | 2, _ :: _ :: _, _, _ => rfl

/-- Settles O18: the operand bytes that the decoder took are those the encoder writes. -/
theorem encodeOfDecode : Obligations.EncodeOfDecode := by
  unfold Obligations.EncodeOfDecode
  intro bytes rest i h
  obtain ⟨ir, tail, o, rfl, ho, hcount, rfl, rfl⟩ := decodeWith_ok h
  obtain rfl := byte_of_classify ho
  have htwo := (defaultMapIsAdmissible.fields o).1
  rw [encode, encodeWith, Op.opcode_instr, operands_default, take_getD htwo hcount, List.cons_append,
    List.take_append_drop]

/-! ## The verdict on a byte (R82, R86) -/

theorem OpcodeMap.mem_bytes_iff (m : OpcodeMap) (ir : Byte) : ir ∈ m.bytes ↔ ∃ o : Op, ir = o.byte m := by
  constructor
  · intro h
    simp only [bytes, List.mem_cons, List.not_mem_nil, or_false] at h
    obtain h | h | h | h | h | h | h | h | h | h := h
    exacts [⟨.hlt, h⟩, ⟨.ldi, h⟩, ⟨.prn, h⟩, ⟨.push, h⟩, ⟨.pop, h⟩, ⟨.call, h⟩, ⟨.ret, h⟩, ⟨.add, h⟩, ⟨.sub, h⟩,
      ⟨.mul, h⟩]
  · rintro ⟨o, rfl⟩
    rw [← o.bytes_index m]
    exact List.getElem_mem _

/-- A byte that is no operation's is illegal, and bit 5 says in which way. -/
theorem classify_cases (m : OpcodeMap) (ir : Byte) :
    (∃ o, classify m ir = .op o) ∨ (isAluOp ir = true ∧ classify m ir = .illegalAlu) ∨
    (isAluOp ir = false ∧ classify m ir = .illegalNamed) := by
  cases h : isAluOp ir with
  | true =>
    simp only [classify, h, if_true, classifyAlu]
    split_ifs <;> simp
  | false =>
    simp only [classify, h, Bool.false_eq_true, if_false, classifyNamed]
    split_ifs <;> simp

theorem OpcodeMap.Admissible.classify_op_iff {m : OpcodeMap} (h : m.Admissible) (ir : Byte) (o : Op) :
    classify m ir = .op o ↔ ir = o.byte m :=
  ⟨byte_of_classify, fun e => e ▸ h.classify_byte o⟩

/-- A byte outside the map is classified by its bit 5. -/
theorem classify_of_not_mem {m : OpcodeMap} {ir : Byte} (h : ir ∉ m.bytes) :
    classify m ir = if isAluOp ir then .illegalAlu else .illegalNamed := by
  obtain ⟨o, ho⟩ | ⟨hbit, hc⟩ | ⟨hbit, hc⟩ := classify_cases m ir
  · exact absurd ((m.mem_bytes_iff ir).2 ⟨o, byte_of_classify ho⟩) h
  · rw [hc, hbit, if_pos rfl]
  · rw [hc, hbit, if_neg Bool.false_ne_true]

/-- Settles O14: an operation's byte has that operation's verdict, and any other byte the verdict of its bit 5. -/
theorem everyByteIsClassified : Obligations.EveryByteIsClassified := by
  unfold Obligations.EveryByteIsClassified
  intro m ir h
  refine ⟨fun o => h.classify_op_iff ir o, ?_⟩
  by_cases hmem : ir ∈ m.bytes
  · obtain ⟨o, rfl⟩ := (m.mem_bytes_iff ir).1 hmem
    simp [h.classify_byte, hmem]
  · cases hbit : isAluOp ir <;> simp [classify_of_not_mem hmem, hbit, hmem]

/-! ## The fields, and the words of the default map (R81, R85) -/

/-- One bit of a byte as a digit of its number. -/
theorem getLsbD_eq_true_iff (v : Byte) (k : Nat) : v.getLsbD k = true ↔ v.toNat / 2 ^ k % 2 = 1 := by
  rw [BitVec.getLsbD, Nat.testBit_eq_decide_div_mod_eq, decide_eq_true_eq]

/-- Settles O11: a field is a quotient of the byte's number, reduced modulo its width. -/
theorem opcodeFieldsLieWhereTheSpecPutsThem : Obligations.OpcodeFieldsLieWhereTheSpecPutsThem := by
  unfold Obligations.OpcodeFieldsLieWhereTheSpecPutsThem
  intro ir
  have hlt := ir.isLt
  refine ⟨?_, getLsbD_eq_true_iff ir 5, getLsbD_eq_true_iff ir 4, ?_⟩
  · rw [operandCount, BitVec.extractLsb'_toNat, Nat.shiftRight_eq_div_pow]
    omega
  · rw [identifier, BitVec.extractLsb'_toNat, Nat.shiftRight_zero]

/-- Settles O13: the ten words are the encodings of their instructions, and the decoder gives an encoded one back. -/
theorem opcodeTableWordsDecode : Obligations.OpcodeTableWordsDecode := by
  unfold Obligations.OpcodeTableWordsDecode
  have h : ∀ i : Instr, decode (encode i ++ []) = .ok (i, []) :=
    fun i => decodeOfEncode OpcodeMap.defaultMap i [] defaultMapIsAdmissible
  exact ⟨h .hlt, h (.ldi 5 255), h (.prn 7), h (.push 2), h (.pop 1), h (.call 3), h .ret, h (.add 0 1), h (.sub 2 4),
    h (.mul 6 3)⟩

/-- Settles O15: the default map is data, so the verdicts of the 256 bytes are computed and counted. -/
theorem classificationCounts : Obligations.ClassificationCounts := by
  unfold Obligations.ClassificationCounts
  exact ⟨rfl, rfl⟩

end Sys2Proof
end

section
/-! PROOFS. What an instruction that completes leaves unchanged, and what taking a fault leaves unchanged. -/

namespace Sys2Proof.Machine

/-! ## The registers and the cells an instruction writes (R24, R53) -/

/-- The instruction may write the register: its destination, or SP. -/
def WritesReg (i : Instr) (r : Fin 8) : Prop :=
  match i with
  | .hlt => False
  | .ldi a _ => r.val = a.toNat
  | .prn _ => False
  | .push _ => r = sp
  | .pop a => r.val = a.toNat ∨ r = sp
  | .call _ => r = sp
  | .ret => r = sp
  | .add a _ => r.val = a.toNat
  | .sub a _ => r.val = a.toNat
  | .mul a _ => r.val = a.toNat

/-- The instruction at `s` may write the cell: the stack slot of a push or a call. -/
def WritesCell (i : Instr) (s : State) (addr : Nat) : Prop :=
  (i.op = .push ∨ i.op = .call) ∧ addr = pushSlot s

theorem reg_setReg_unnamed {a : Byte} (ha : a.toNat < 8) (v : Byte) (s : State) {r : Fin 8} (h : ¬r.val = a.toNat) :
    (s.setReg ⟨a.toNat, ha⟩ v).reg r = s.reg r :=
  reg_setReg_other v s fun e => h (congrArg Fin.val e)

theorem Completed.reg_eq {i : Instr} {s t : State} (h : Completed i s t) {r : Fin 8} (hr : ¬WritesReg i r) :
    t.reg r = s.reg r := by
  cases h with
  | hlt => rfl
  | prn => rfl
  | ldi imm s ha => exact reg_setReg_unnamed ha _ s hr
  | push s ha => exact reg_setReg_other _ s hr
  | pop s ha =>
    obtain ⟨hdest, hsp⟩ := not_or.1 hr
    rw [advancePc_reg, reg_setReg_other _ _ hsp, reg_setReg_unnamed ha _ s hdest]
  | call s ha hp => exact reg_setReg_other _ s hr
  | ret => exact reg_setReg_other _ s hr
  | add s ha hb => exact reg_setReg_unnamed ha _ s hr
  | sub s ha hb => exact reg_setReg_unnamed ha _ s hr
  | mul s ha hb => exact reg_setReg_unnamed ha _ s hr

theorem Completed.cell_eq {i : Instr} {s t : State} (h : Completed i s t) {addr : Nat} (hc : ¬WritesCell i s addr) :
    t.cell addr = s.cell addr := by
  cases h with
  | push s ha => exact cell_store_other _ (pushSp s) fun e => hc ⟨.inl rfl, e⟩
  | call s ha hp => exact cell_store_other _ (pushSp s) fun e => hc ⟨.inr rfl, e⟩
  | _ => rfl

theorem Completed.out_eq {i : Instr} {s t : State} (h : Completed i s t) (hi : i.op ≠ .prn) : t.out = s.out := by
  cases h with
  | prn => exact absurd rfl hi
  | _ => rfl

theorem Completed.bt_eq {i : Instr} {s t : State} (h : Completed i s t) (hc : i.op ≠ .call) (hr : i.op ≠ .ret) :
    t.bt = s.bt := by
  cases h with
  | call => exact absurd rfl hc
  | ret => exact absurd rfl hr
  | _ => rfl

theorem Completed.status_eq {i : Instr} {s t : State} (h : Completed i s t) (hi : i.op ≠ .hlt) :
    t.status = s.status := by
  cases h with
  | hlt => exact absurd rfl hi
  | _ => rfl

theorem Completed.latches {i : Instr} {s t : State} (h : Completed i s t) : SameLatches s t := by
  cases h <;> exact ⟨rfl, rfl, rfl, rfl⟩

/-- The frame of an instruction, from what it writes. -/
theorem Completed.frame {i : Instr} {s t : State} (h : Completed i s t) {regs : List (Fin 8)} {cells : List Nat}
    (hr : ∀ r, WritesReg i r → r ∈ regs) (hc : ∀ addr, WritesCell i s addr → addr ∈ cells) : Frame regs cells s t where
  regs r hn := h.reg_eq (mt (hr r) hn)
  cells addr hn := h.cell_eq (mt (hc addr) hn)
  record := h.faultRecord
  latches := h.latches

/-! ## Taking a fault (R215, R216) -/

theorem takeFault_latches (fetched : Bool) (c : FaultCause) (s : State) : SameLatches s (takeFault fetched c s) :=
  ⟨rfl, rfl, rfl, rfl⟩

/-- A fault taken where the host sees what it saw at `s`, and BT is the same, ends a step from `s`. -/
theorem faultTaken_takeFault {s u : State} (ho : observe u = observe s) (hbt : u.bt = s.bt) (fetched : Bool)
    (c : FaultCause) : FaultTaken (if fetched then some u.ir else none) c s (takeFault fetched c u) where
  status := rfl
  kind := rfl
  atPc := congrArg Observation.pc ho
  irValid := by cases fetched <;> rfl
  ir := by cases fetched <;> rfl
  info := rfl
  regs r := congrArg (fun v => v.regs[r.val]) ho
  cells addr := congrArg (fun v => v.mem.lookup addr) ho
  pc := congrArg Observation.pc ho
  out := congrArg Observation.out ho
  bt := hbt

/-- The fault that an instruction raises. -/
theorem faultTaken_exec (c : FaultCause) (s : State) : FaultTaken (some s.ir) c s (takeFault true c s) :=
  faultTaken_takeFault rfl rfl true c

/-! ## The frames of the instructions -/

/-- Any instruction but CALL raises only when it is ill-formed. -/
theorem Raises.wf_eq_false {i : Instr} {s : State} {c : FaultCause} (h : Raises i s c) (hi : i.op ≠ .call) :
    i.wf = false := by
  obtain hwf | ⟨a, rfl, -⟩ := h.reason
  · exact hwf
  · exact absurd rfl hi

theorem not_writesCell {i : Instr} (hpush : i.op ≠ .push) (hcall : i.op ≠ .call) (s : State) (addr : Nat) :
    ¬WritesCell i s addr := fun h => h.1.elim hpush hcall

/-- Settles O54: completed, only the register that operand A names is written; a fault leaves everything shown alone. -/
theorem frameOfLdiAndTheAlu : Obligations.FrameOfLdiAndTheAlu := by
  unfold Obligations.FrameOfLdiAndTheAlu
  intro i a b s t hi h
  have hop : i.op ≠ .hlt ∧ i.op ≠ .prn ∧ i.op ≠ .push ∧ i.op ≠ .call ∧ i.op ≠ .ret := by
    fin_cases hi <;> simp [Instr.op]
  have hdest : ∀ r, WritesReg i r → r.val = a.toNat := by
    fin_cases hi <;> exact fun _ h => h
  obtain ⟨hhlt, hprn, hpush, hcall, hret⟩ := hop
  obtain hc | ⟨c, hr, rfl⟩ := exec_inv h
  · exact ⟨hc.latches, fun addr => hc.cell_eq (not_writesCell hpush hcall s addr), hc.out_eq hprn, hc.bt_eq hcall hret,
      fun r hne => hc.reg_eq (mt (hdest r) hne), fun _ => ⟨hc.status_eq hhlt, hc.faultRecord⟩,
      fun hwf => absurd hc.reason.1 (ne_true_of_eq_false hwf)⟩
  · have hwf := hr.wf_eq_false hcall
    exact ⟨takeFault_latches _ _ s, fun _ => rfl, rfl, rfl, fun _ _ => rfl,
      fun e => absurd e (ne_true_of_eq_false hwf), fun _ => ⟨rfl, fun _ => rfl⟩⟩

/-- Settles O55: neither instruction writes a register or a cell, and each writes Out or STATUS but not the other. -/
theorem frameOfHltAndPrn : Obligations.FrameOfHltAndPrn := by
  unfold Obligations.FrameOfHltAndPrn
  intro a i s t hi h
  have hop : i.op ≠ .push ∧ i.op ≠ .call ∧ i.op ≠ .ret := by
    fin_cases hi <;> simp [Instr.op]
  have hreg : ∀ r, ¬WritesReg i r := by
    fin_cases hi <;> exact fun _ h => h
  obtain ⟨hpush, hcall, hret⟩ := hop
  obtain hc | ⟨c, hr, rfl⟩ := exec_inv h
  · refine ⟨hc.latches, fun addr => hc.cell_eq (not_writesCell hpush hcall s addr), hc.bt_eq hcall hret,
      fun r => hc.reg_eq (hreg r), ?hlt, ?prn, fun _ => hc.faultRecord,
      fun hwf => absurd hc.reason.1 (ne_true_of_eq_false hwf)⟩
    case hlt =>
      rintro rfl
      exact hc.out_eq nofun
    case prn =>
      rintro rfl -
      exact hc.status_eq nofun
  · have hwf := hr.wf_eq_false hcall
    exact ⟨takeFault_latches _ _ s, fun _ => rfl, rfl, fun _ => rfl, fun _ => rfl,
      fun _ e => absurd e (ne_true_of_eq_false hwf), fun e => absurd e (ne_true_of_eq_false hwf), fun _ => ⟨rfl, rfl⟩⟩

/-- Settles O56: completed, only SP and POP's destination are written, and memory is only read. -/
theorem frameOfPopAndRet : Obligations.FrameOfPopAndRet := by
  unfold Obligations.FrameOfPopAndRet
  intro a i s t hi h
  have hop : i.op ≠ .hlt ∧ i.op ≠ .prn ∧ i.op ≠ .push ∧ i.op ≠ .call := by
    fin_cases hi <;> simp [Instr.op]
  obtain ⟨hhlt, hprn, hpush, hcall⟩ := hop
  obtain hc | ⟨c, hr, rfl⟩ := exec_inv h
  · refine ⟨hc.latches, fun addr => hc.cell_eq (not_writesCell hpush hcall s addr), hc.out_eq hprn, ?bt, ?regs,
      fun _ => ⟨hc.status_eq hhlt, hc.faultRecord⟩, fun hwf => absurd hc.reason.1 (ne_true_of_eq_false hwf)⟩
    case bt =>
      rintro rfl
      exact hc.bt_eq nofun nofun
    case regs =>
      intro r hsp hdest
      refine hc.reg_eq ?_
      fin_cases hi
      · exact not_or.2 ⟨hdest rfl, hsp⟩
      · exact hsp
  · have hwf := hr.wf_eq_false hcall
    exact ⟨takeFault_latches _ _ s, fun _ => rfl, rfl, fun _ => rfl, fun _ _ _ => rfl,
      fun e => absurd e (ne_true_of_eq_false hwf), fun _ => ⟨rfl, fun _ => rfl⟩⟩

/-- Settles O57: completed, only SP and the stack slot are written; the two faults of CALL and the one of PUSH are the
ways not to complete. -/
theorem frameOfPushAndCall : Obligations.FrameOfPushAndCall := by
  unfold Obligations.FrameOfPushAndCall
  intro a i s t hi h
  have hop : i.op ≠ .hlt ∧ i.op ≠ .prn ∧ i.op ≠ .ret := by
    fin_cases hi <;> simp [Instr.op]
  have hreg : ∀ r, WritesReg i r → r = sp := by
    fin_cases hi <;> exact fun _ h => h
  obtain ⟨hhlt, hprn, hret⟩ := hop
  obtain hc | ⟨c, hr, rfl⟩ := exec_inv h
  · refine ⟨hc.latches, ?cells, hc.out_eq hprn, ?bt, fun r hne => hc.reg_eq (mt (hreg r) hne),
      fun _ _ => ⟨hc.status_eq hhlt, hc.faultRecord⟩, ?fault⟩
    case cells =>
      rintro _ rfl addr hne
      exact hc.cell_eq fun hw => hne hw.2
    case bt =>
      rintro rfl
      exact hc.bt_eq nofun nofun
    case fault =>
      obtain ⟨hwf, hpc⟩ := hc.reason
      rintro (hill | ⟨rfl, hout⟩)
      · exact absurd hwf (ne_true_of_eq_false hill)
      · exact absurd hout (Nat.not_lt.2 (hpc ⟨a, rfl⟩))
  · refine ⟨takeFault_latches _ _ s, fun _ _ _ _ => rfl, rfl, fun _ => rfl, fun _ _ => rfl, ?_,
      fun _ => ⟨rfl, rfl, fun _ => rfl, fun _ => rfl⟩⟩
    intro hwf hpc
    obtain hill | ⟨a', rfl, hout⟩ := hr.reason
    · exact absurd hwf (ne_true_of_eq_false hill)
    · have ha : a' = a := by simpa using hi
      exact absurd hout (Nat.not_lt.2 (hpc (ha ▸ rfl)))

end Sys2Proof.Machine
end

section
/-! PROOFS. Everything a step can do under an admissible opcode map, and the invariant it keeps. -/

namespace Sys2Proof

/-- Only the operand bytes that the opcode's count covers are used (R83, R115). -/
theorem OpcodeMap.Admissible.instr_congr {m : OpcodeMap} (h : m.Admissible) {o : Op} {a b a' b' : Byte}
    (ha : 1 ≤ operandCount (o.byte m) → a = a') (hb : 2 ≤ operandCount (o.byte m) → b = b') :
    o.instr a b = o.instr a' b' := by
  obtain rfl | hcount := h.count o
  · rfl
  · rw [hcount] at ha hb
    cases o <;> simp_all [Op.instr]

end Sys2Proof

namespace Sys2Proof.Machine

/-! ## What the bytes at pc are (R112 to R115) -/

/-- The opcode at pc is the operation's and every operand byte it covers is inside the memory. -/
structure Fetched (m : OpcodeMap) (s : State) (o : Op) : Prop where
  opcode : s.cell s.pc.toNat = o.byte m
  inMemory : s.pc.toNat + operandCount (o.byte m) ≤ 0xFF

theorem Fetched.pc_le {m : OpcodeMap} {s : State} {o : Op} (h : Fetched m s o) : s.pc.toNat ≤ 0xFF :=
  (Nat.le_add_right _ _).trans h.inMemory

/-- The instruction that an operation makes of the two bytes after pc. -/
def fetchedInstr (o : Op) (s : State) : Instr := o.instr (s.cell (s.pc.toNat + 1)) (s.cell (s.pc.toNat + 2))

@[simp] theorem op_fetchedInstr (o : Op) (s : State) : (fetchedInstr o s).op = o := Op.op_instr o _ _

/-- The faults of the fetch and of the decoder: whether there was an opcode byte, and the cause. -/
inductive FetchFault (m : OpcodeMap) (s : State) : Bool → FaultCause → Prop where
  | opcode (hp : 0xFF < s.pc.toNat) : FetchFault m s false (.outOfRangeAddress s.pc.toNat)
  | named (hp : s.pc.toNat ≤ 0xFF) (hc : classify m (s.cell s.pc.toNat) = .illegalNamed) :
      FetchFault m s true .unrecognizedOpcode
  | alu (hp : s.pc.toNat ≤ 0xFF) (hc : classify m (s.cell s.pc.toNat) = .illegalAlu) :
      FetchFault m s true .unsupportedAluOperation
  | operand {o : Op} (hp : s.pc.toNat ≤ 0xFF) (hc : classify m (s.cell s.pc.toNat) = .op o)
      (hout : 0xFF < s.pc.toNat + operandCount (s.cell s.pc.toNat)) : FetchFault m s true (.outOfRangeAddress 0x100)

/-- The decoder's answer where the bytes at pc are an instruction. -/
theorem Fetched.decode {m : OpcodeMap} {s : State} {o : Op} (h : Fetched m s o) (hm : m.Admissible) :
    ∃ rest, decodeWith m (fetchBytes s) = .ok (fetchedInstr o s, rest) := by
  obtain ⟨hop, hin⟩ := h
  have htwo := (hm.fields o).1
  have hc := hm.classify_byte o
  rw [← hop] at hin htwo hc
  obtain ⟨a, b, rest, hd, ha, hb⟩ := decode_fetch_op (by omega) hc htwo hin
  rw [hop] at ha hb
  exact ⟨rest, hd.trans (by rw [hm.instr_congr ha hb, fetchedInstr])⟩

/-- The decoder's answer where they are none: the rejection that stands for the fault. -/
theorem FetchFault.decode {m : OpcodeMap} {s : State} {fetched : Bool} {c : FaultCause} (h : FetchFault m s fetched c)
    (hm : m.Admissible) :
    ∃ r, decodeWith m (fetchBytes s) = .error r ∧ Reject.fetched r = fetched ∧ rejectCause s r = c := by
  cases h with
  | opcode hp => exact ⟨.noOpcode, by rw [fetchBytes_empty hp]; rfl, rfl, rfl⟩
  | named hp hc => exact ⟨.unrecognizedOpcode, by rw [fetchBytes_cons hp]; simp only [decodeWith, hc], rfl, rfl⟩
  | alu hp hc => exact ⟨.unsupportedAluOperation, by rw [fetchBytes_cons hp]; simp only [decodeWith, hc], rfl, rfl⟩
  | @operand o hp hc hout =>
    have htwo : operandCount (s.cell s.pc.toNat) ≤ 2 := byte_of_classify hc ▸ (hm.fields o).1
    obtain ⟨k, hd, hk⟩ := decode_fetch_missing hp hc htwo hout
    exact ⟨.missingOperand k, hd, rfl, by rw [rejectCause, hk]⟩

/-- There is nothing else that the bytes at pc can be. -/
theorem fetch_cases (m : OpcodeMap) (s : State) :
    (∃ fetched c, FetchFault m s fetched c) ∨ ∃ o, Fetched m s o := by
  obtain hp | hp := Nat.lt_or_ge 0xFF s.pc.toNat
  · exact .inl ⟨_, _, .opcode hp⟩
  · obtain ⟨o, hc⟩ | ⟨-, hc⟩ | ⟨-, hc⟩ := classify_cases m (s.cell s.pc.toNat)
    · obtain hout | hin := Nat.lt_or_ge 0xFF (s.pc.toNat + operandCount (s.cell s.pc.toNat))
      · exact .inl ⟨_, _, .operand hp hc hout⟩
      · have hop := byte_of_classify hc
        exact .inr ⟨o, hop, hop ▸ hin⟩
    · exact .inl ⟨_, _, .alu hp hc⟩
    · exact .inl ⟨_, _, .named hp hc⟩

/-! ## The step -/

theorem rejectCause_afterOpcodeFetch (s : State) (r : Reject) : rejectCause (afterOpcodeFetch s) r = rejectCause s r := by
  cases r <;> simp [rejectCause]

/-- A running step at bytes that are an instruction runs it. -/
theorem Fetched.stepWith_eq {m : OpcodeMap} {s : State} {o : Op} (h : Fetched m s o) (hm : m.Admissible)
    (hs : s.status = .running) : stepWith m s = exec (fetchedInstr o s) (afterFetch s) := by
  obtain ⟨rest, hd⟩ := h.decode hm
  exact stepWith_ok hs hd

/-- A running step at any others takes the fault. -/
theorem FetchFault.stepWith_eq {m : OpcodeMap} {s : State} {fetched : Bool} {c : FaultCause}
    (h : FetchFault m s fetched c) (hm : m.Admissible) (hs : s.status = .running) :
    stepWith m s = .next (takeFault fetched c (afterOpcodeFetch s)) := by
  obtain ⟨r, hd, rfl, rfl⟩ := h.decode hm
  rw [stepWith_error hs hd, takeReject, rejectCause_afterOpcodeFetch]

/-- The state `t` is what a step from `s` answers under the admissible map `m`. -/
inductive Stepped (m : OpcodeMap) (s : State) : State → Prop where
  | ended (hs : s.status ≠ .running) : Stepped m s s
  | fetchFault {fetched : Bool} {c : FaultCause} (hs : s.status = .running) (hf : FetchFault m s fetched c) :
      Stepped m s (takeFault fetched c (afterOpcodeFetch s))
  | completed {o : Op} {t : State} (hs : s.status = .running) (hf : Fetched m s o)
      (hc : Completed (fetchedInstr o s) (afterFetch s) t) : Stepped m s t
  | raised {o : Op} {c : FaultCause} (hs : s.status = .running) (hf : Fetched m s o)
      (hr : Raises (fetchedInstr o s) (afterFetch s) c) : Stepped m s (takeFault true c (afterFetch s))

theorem stepWith_stepped {m : OpcodeMap} (hm : m.Admissible) (s : State) : ∃ t, stepWith m s = .next t ∧ Stepped m s t := by
  by_cases hs : s.status = .running
  · obtain ⟨fetched, c, hf⟩ | ⟨o, hf⟩ := fetch_cases m s
    · exact ⟨_, hf.stepWith_eq hm hs, .fetchFault hs hf⟩
    · rw [hf.stepWith_eq hm hs]
      obtain ⟨t, ht, hc⟩ | ⟨c, ht, hr⟩ := exec_cases (fetchedInstr o s) (afterFetch s)
      · exact ⟨t, ht, .completed hs hf hc⟩
      · exact ⟨_, ht, .raised hs hf hr⟩
  · exact ⟨s, stepWith_ended m hs, .ended hs⟩

theorem stepped_of_stepWith {m : OpcodeMap} (hm : m.Admissible) {s t : State} (h : stepWith m s = .next t) :
    Stepped m s t := by
  obtain ⟨u, hu, hstep⟩ := stepWith_stepped hm s
  rw [h] at hu
  cases hu
  exact hstep

/-! ## The faults of a step -/

/-- The opcode byte of the step, where it can be fetched (R31). -/
def fetchedOpcode (s : State) : Option Byte := if s.pc.toNat ≤ 0xFF then some (s.cell s.pc.toNat) else none

theorem fetchedOpcode_inside {s : State} (h : s.pc.toNat ≤ 0xFF) : fetchedOpcode s = some (s.cell s.pc.toNat) := if_pos h

theorem fetchedOpcode_outside {s : State} (h : 0xFF < s.pc.toNat) : fetchedOpcode s = none := if_neg (Nat.not_le.2 h)

/-- Bytes that do not decode were rejected with an opcode byte exactly where pc is an address. -/
theorem fetched_iff_of_decode_error {m : OpcodeMap} {s : State} {r : Reject}
    (h : decodeWith m (fetchBytes s) = .error r) : Reject.fetched r = true ↔ s.pc.toNat ≤ 0xFF := by
  constructor
  · intro hr
    by_contra hp
    rw [fetchBytes_empty (Nat.not_le.1 hp)] at h
    cases h
    cases hr
  · intro hp
    rw [fetchBytes_cons hp] at h
    obtain ⟨hnil, -⟩ | ⟨ir, tail, -, ⟨-, rfl⟩ | ⟨-, rfl⟩ | ⟨o, -, -, rfl⟩⟩ := decodeWith_error h
    · cases hnil
    all_goals rfl

/-- A rejection ends the step in its fault, under any map. -/
theorem faultTaken_takeReject {m : OpcodeMap} {s : State} {r : Reject} (h : decodeWith m (fetchBytes s) = .error r) :
    FaultTaken (fetchedOpcode s) (rejectCause s r) s (takeReject r (afterOpcodeFetch s)) := by
  have htaken := faultTaken_takeFault (afterOpcodeFetch_observe s) (afterOpcodeFetch_bt s) (Reject.fetched r)
    (rejectCause s r)
  have hir : (if Reject.fetched r then some (afterOpcodeFetch s).ir else none) = fetchedOpcode s := by
    by_cases hp : s.pc.toNat ≤ 0xFF
    · rw [if_pos ((fetched_iff_of_decode_error h).2 hp), afterOpcodeFetch_ir hp, fetchedOpcode_inside hp]
    · rw [if_neg (mt (fetched_iff_of_decode_error h).1 hp), fetchedOpcode_outside (Nat.not_le.1 hp)]
  rw [takeReject, rejectCause_afterOpcodeFetch, ← hir]
  exact htaken

/-- An instruction that raises ends the step in its fault. -/
theorem faultTaken_afterFetch {s : State} (hp : s.pc.toNat ≤ 0xFF) (c : FaultCause) :
    FaultTaken (fetchedOpcode s) c s (takeFault true c (afterFetch s)) := by
  have htaken := faultTaken_takeFault (afterFetch_observe s) (afterFetch_bt s) true c
  rw [fetchedOpcode_inside hp, ← afterFetch_ir hp]
  exact htaken

theorem FetchFault.faultTaken {m : OpcodeMap} {s : State} {fetched : Bool} {c : FaultCause}
    (h : FetchFault m s fetched c) (hm : m.Admissible) :
    FaultTaken (fetchedOpcode s) c s (takeFault fetched c (afterOpcodeFetch s)) := by
  obtain ⟨r, hd, rfl, rfl⟩ := h.decode hm
  have htaken := faultTaken_takeReject hd
  rwa [takeReject, rejectCause_afterOpcodeFetch] at htaken

/-! ## pc after an instruction (R118) -/

/-- The PC update by the opcode's fields: BT, or the incrementer. -/
theorem Completed.pc_eq {m : OpcodeMap} (hm : m.Admissible) {o : Op} {a b : Byte} {s t : State}
    (h : Completed (o.instr a b) s t) :
    t.pc = if setsPc (o.byte m) then zext9 t.bt else s.pc + BitVec.ofNat 9 (operandCount (o.byte m) + 1) := by
  obtain ⟨-, hset, -⟩ := hm.fields o
  have hcount := hm.count o
  cases o with
  | call =>
    cases h
    rw [if_pos (hset.2 (.inl rfl))]
    rfl
  | ret =>
    cases h
    rw [if_pos (hset.2 (.inr rfl))]
    rfl
  | _ =>
    rw [if_neg (by simp [hset]), hcount.resolve_left nofun]
    cases h
    rfl

theorem Completed.bt_eq_of_not_setsPc {m : OpcodeMap} (hm : m.Admissible) {o : Op} {a b : Byte} {s t : State}
    (h : Completed (o.instr a b) s t) (hset : setsPc (o.byte m) = false) : t.bt = s.bt := by
  obtain ⟨-, hbranch, -⟩ := hm.fields o
  have hne : ¬(o = .call ∨ o = .ret) := mt hbranch.2 (ne_true_of_eq_false hset)
  obtain ⟨hcall, hret⟩ := not_or.1 hne
  exact h.bt_eq (by rwa [Op.op_instr]) (by rwa [Op.op_instr])

/-- The incrementer does not wrap where the instruction's bytes are in memory. -/
theorem toNat_incremented {pc : PcWord} {n : Nat} (h : pc.toNat + n ≤ 0xFF) :
    (pc + BitVec.ofNat 9 (n + 1)).toNat = pc.toNat + n + 1 := by
  rw [BitVec.toNat_add, BitVec.toNat_ofNat]
  omega

/-- pc stays an address or the one after the last (R26). -/
theorem Completed.pc_le {m : OpcodeMap} (hm : m.Admissible) {o : Op} {a b : Byte} {s t : State}
    (h : Completed (o.instr a b) s t) (hin : s.pc.toNat + operandCount (o.byte m) ≤ 0xFF) : t.pc.toNat ≤ 0x100 := by
  rw [h.pc_eq hm]
  split
  · rw [zext9_toNat]
    have := t.bt.isLt
    omega
  · rw [toNat_incremented hin]
    omega

end Sys2Proof.Machine
end

section
/-! PROOFS. The invariant of spec/10_state.md and spec/60_exceptions.md: at reset, after an image load, after every step. -/

namespace Sys2Proof.Machine

/-! ## FAULT_INFO (R211, R213) -/

theorem FaultCause.kind_ne_none (c : FaultCause) : c.kind ≠ .none := by cases c <;> exact nofun

theorem info_registerIndex {a : Byte} (ha : 8 ≤ a.toNat) :
    InfoMatchesKind (FaultCause.registerIndexOutOfRange a).kind (FaultCause.registerIndexOutOfRange a).info := by
  have hlt := a.isLt
  simp only [FaultCause.kind, FaultCause.info, InfoMatchesKind, BitVec.toNat_setWidth]
  omega

theorem info_outOfRange {addr : Nat} (h : addr = 0x100) :
    InfoMatchesKind (FaultCause.outOfRangeAddress addr).kind (FaultCause.outOfRangeAddress addr).info := by
  subst h
  rfl

theorem FetchFault.info {m : OpcodeMap} {s : State} {fetched : Bool} {c : FaultCause} (h : FetchFault m s fetched c)
    (hp : s.pc.toNat ≤ 0x100) : InfoMatchesKind c.kind c.info := by
  cases h with
  | opcode hout => exact info_outOfRange (by omega)
  | named => rfl
  | alu => rfl
  | operand => rfl

/-- The address a CALL reports is 0x100 too, since its own operand byte is inside the memory. -/
theorem Raises.info {i : Instr} {s : State} {c : FaultCause} (h : Raises i s c)
    (hp : i.op = .call → s.pc.toNat + 1 ≤ 0xFF) : InfoMatchesKind c.kind c.info := by
  cases h with
  | callReturn s ha hout =>
    have := hp rfl
    exact info_outOfRange (by omega)
  | ldi imm s ha => exact info_registerIndex ha
  | prn s ha => exact info_registerIndex ha
  | push s ha => exact info_registerIndex ha
  | pop s ha => exact info_registerIndex ha
  | call s ha => exact info_registerIndex ha
  | addA b s ha => exact info_registerIndex ha
  | addB s ha hb => exact info_registerIndex hb
  | subA b s ha => exact info_registerIndex ha
  | subB s ha hb => exact info_registerIndex hb
  | mulA b s ha => exact info_registerIndex ha
  | mulB s ha hb => exact info_registerIndex hb

/-! ## The invariant after a step -/

/-- A fault keeps the invariant when its cause fits it. -/
theorem FaultTaken.inv {c : FaultCause} {s t : State} (h : FaultTaken (fetchedOpcode s) c s t) (hs : Inv s)
    (hmem : t.mem = s.mem) (hopen : t.loadOpen = false) (hinfo : InfoMatchesKind c.kind c.info)
    (hout : 0xFF < s.pc.toNat → c.kind = .outOfRangeAddress) : Inv t where
  memory := hmem ▸ hs.memory
  pcRange := h.pc ▸ hs.pcRange
  clearRecord := fun hne => absurd h.status hne
  kindHeld := fun _ => h.kind ▸ c.kind_ne_none
  faultAtPc := fun _ => h.atPc.trans h.pc.symm
  fetchedIr := by
    intro _ hvalid
    rw [h.irValid] at hvalid
    have hp : s.pc.toNat ≤ 0xFF := by
      by_contra hp
      rw [fetchedOpcode_outside (Nat.not_le.1 hp)] at hvalid
      cases hvalid
    rw [h.pc, h.ir, h.cells, fetchedOpcode_inside hp]
    exact ⟨hp, rfl⟩
  unfetchedIr := by
    intro _ hvalid
    rw [h.irValid] at hvalid
    have hp : 0xFF < s.pc.toNat := by
      by_contra hp
      rw [fetchedOpcode_inside (Nat.not_lt.1 hp)] at hvalid
      cases hvalid
    have hrange := hs.pcRange
    have hpc : s.pc = 0x100 := BitVec.eq_of_toNat_eq (Nat.le_antisymm hrange hp)
    rw [h.pc, h.ir, h.kind, fetchedOpcode_outside hp]
    exact ⟨hpc, rfl, hout hp⟩
  info := fun _ => by rw [h.kind, h.info]; exact hinfo
  beforeRun := fun e => absurd e (ne_true_of_eq_false hopen)

/-- A state that has not faulted meets the invariant when the four clauses about such states hold. -/
theorem inv_of_not_faulted {s : State} (hstatus : s.status ≠ .faulted) (hmem : s.mem.wf = true)
    (hpc : s.pc.toNat ≤ 0x100) (hrecord : s.faultRecord = noFault)
    (hopen : s.loadOpen = true → observe s = observe { State.reset with mem := s.mem }) : Inv s where
  memory := hmem
  pcRange := hpc
  clearRecord := fun _ => hrecord
  kindHeld := fun h => absurd h hstatus
  faultAtPc := fun h => absurd h hstatus
  fetchedIr := fun h => absurd h hstatus
  unfetchedIr := fun h => absurd h hstatus
  info := fun h => absurd h hstatus
  beforeRun := hopen

/-- An instruction that completes does not fault. -/
theorem Completed.not_faulted {i : Instr} {s t : State} (h : Completed i s t) (hs : s.status = .running) :
    t.status ≠ .faulted := by
  rw [h.status, hs]
  split <;> exact nofun

/-- A completed instruction keeps the invariant. -/
theorem Completed.inv {m : OpcodeMap} (hm : m.Admissible) {o : Op} {s t : State} (hs : Inv s)
    (hrun : s.status = .running) (hf : Fetched m s o) (h : Completed (fetchedInstr o s) (afterFetch s) t) : Inv t := by
  have hclosed : t.loadOpen = false := h.loadOpen.trans (afterFetch_loadOpen s)
  refine inv_of_not_faulted (h.not_faulted (by simpa using hrun)) (h.memory (by simpa using hs.memory)) ?pc ?record
    fun e => absurd e (ne_true_of_eq_false hclosed)
  case pc => exact Completed.pc_le hm h (by simpa using hf.inMemory)
  case record =>
    rw [h.faultRecord, afterFetch_faultRecord]
    exact hs.clearRecord (by simp [hrun])

/-- Settles O36, by the cases of a step. -/
theorem stepKeepsTheInvariant : Obligations.StepKeepsTheInvariant := by
  unfold Obligations.StepKeepsTheInvariant
  intro m s t hm hs h
  cases stepped_of_stepWith hm h with
  | ended => exact hs
  | fetchFault hrun hf =>
    refine (hf.faultTaken hm).inv hs (afterOpcodeFetch_mem s) (afterOpcodeFetch_loadOpen s) (hf.info hs.pcRange) ?_
    intro hout
    cases hf with
    | opcode => rfl
    | named hp => omega
    | alu hp => omega
    | operand => rfl
  | completed hrun hf hc => exact hc.inv hm hs hrun hf
  | @raised o c hrun hf hr =>
    refine (faultTaken_afterFetch hf.pc_le c).inv hs (afterFetch_mem s) (afterFetch_loadOpen s) (hr.info ?_) fun hout => ?_
    · intro hcall
      obtain rfl : o = .call := by simpa using hcall
      have hcount : operandCount (Op.call.byte m) = 1 := (hm.count .call).resolve_left nofun
      have hin := hf.inMemory
      rwa [hcount, ← afterFetch_pc s] at hin
    · exact absurd hf.pc_le (Nat.not_le.2 hout)

/-! ## Reset, the image load, and every reachable state -/

/-- Settles O35: at reset nothing has faulted and the port shows the reset state itself. -/
theorem resetMeetsTheInvariant : Obligations.ResetMeetsTheInvariant :=
  inv_of_not_faulted nofun rfl (by decide) rfl fun _ => rfl

/-- The load port's three answers (R41). -/
theorem loadImage_open {image : List Byte} {s : State} (ho : s.loadOpen = true) (hlen : image.length ≤ memSize) :
    loadImage image s = .next { s with mem := s.mem.storeBytes 0 image } := by
  rw [loadImage, if_pos ho, if_pos hlen]

theorem loadImage_tooLong {image : List Byte} {s : State} (ho : s.loadOpen = true) (hlen : memSize < image.length) :
    loadImage image s = .refused .imageTooLong := by
  rw [loadImage, if_pos ho, if_neg (Nat.not_le.2 hlen)]

theorem loadImage_closed (image : List Byte) {s : State} (ho : s.loadOpen = false) :
    loadImage image s = .fault .loadPortClosed := by
  rw [loadImage, if_neg (ne_true_of_eq_false ho)]

theorem loadImage_inv {image : List Byte} {s t : State} (h : loadImage image s = .next t) :
    s.loadOpen = true ∧ image.length ≤ memSize ∧ t = { s with mem := s.mem.storeBytes 0 image } := by
  obtain ho | ho := Bool.eq_false_or_eq_true s.loadOpen
  · obtain hlen | hlen := Nat.lt_or_ge memSize image.length
    · rw [loadImage_tooLong ho hlen] at h
      cases h
    · rw [loadImage_open ho hlen] at h
      cases h
      exact ⟨ho, hlen, rfl⟩
  · rw [loadImage_closed image ho] at h
    cases h

/-- Settles O37: an open port means a machine as at reset but for its memory, and a load writes memory only. -/
theorem imageLoadKeepsTheInvariant : Obligations.ImageLoadKeepsTheInvariant := by
  unfold Obligations.ImageLoadKeepsTheInvariant
  intro image s t hs h
  obtain ⟨ho, hlen, rfl⟩ := loadImage_inv h
  have hreset := hs.beforeRun ho
  have hrun : s.status = .running := congrArg Observation.status hreset
  have hshown : observe { s with mem := s.mem.storeBytes 0 image } =
      observe { State.reset with mem := s.mem.storeBytes 0 image } :=
    congrArg (fun v => { v with mem := s.mem.storeBytes 0 image }) hreset
  exact inv_of_not_faulted (by simp [hrun]) (Memory.wf_storeBytes (by omega) hs.memory) hs.pcRange
    (hs.clearRecord (by simp [hrun])) fun _ => hshown

/-- Settles O38, by induction on how the state is reached. -/
theorem reachableStatesMeetTheInvariant : Obligations.ReachableStatesMeetTheInvariant := by
  unfold Obligations.ReachableStatesMeetTheInvariant
  intro m s hm h
  induction h with
  | reset => exact resetMeetsTheInvariant
  | load image _ hload ih => exact imageLoadKeepsTheInvariant image _ _ ih hload
  | step _ hstep ih => exact stepKeepsTheInvariant m _ _ hm ih hstep

end Sys2Proof.Machine
end

section
/-! PROOFS. The statements of spec/10_state.md sections 4, 5 and 8 and of spec/20_memory.md section 1: reset, the ports of the
host, the end of a run, the canonical memory. -/

namespace Sys2Proof.Machine

/-! ## Two canonical memories with the same cells (log 7) -/

theorem Memory.wfFrom_cons {lo k : Nat} {w : Byte} {rest : Memory} (h : wfFrom lo ((k, w) :: rest) = true) :
    wfFrom k ((k, w) :: rest) = true ∧ wfFrom (k + 1) rest = true := by
  simp_all [wfFrom]

/-- What is listed at the head of one memory is at the head of the other: neither address can be the lower one. -/
theorem Memory.head_eq {lo lo' k k' : Nat} {w w' : Byte} {rest rest' : Memory}
    (h : wfFrom lo ((k, w) :: rest) = true) (h' : wfFrom lo' ((k', w') :: rest') = true)
    (hcells : ∀ addr, lookup ((k, w) :: rest) addr = lookup ((k', w') :: rest') addr) : k = k' ∧ w = w' := by
  obtain ⟨hk, hw, -⟩ := lookup_head h
  obtain ⟨hk', hw', -⟩ := lookup_head h'
  have heq : k = k' := by
    obtain hlt | heq | hgt := Nat.lt_trichotomy k k'
    · exact absurd ((hk.symm.trans (hcells k)).trans (lookup_below (wfFrom_cons h').1 hlt)) hw
    · exact heq
    · exact absurd ((hk'.symm.trans (hcells k').symm).trans (lookup_below (wfFrom_cons h).1 hgt)) hw'
  subst heq
  exact ⟨rfl, hk.symm.trans ((hcells k).trans hk')⟩

theorem Memory.eq_of_lookup_eq {lo lo' : Nat} {mem mem' : Memory} (h : wfFrom lo mem = true)
    (h' : wfFrom lo' mem' = true) (hcells : ∀ addr, mem.lookup addr = mem'.lookup addr) : mem = mem' := by
  induction mem generalizing lo lo' mem' with
  | nil =>
    cases mem' with
    | nil => rfl
    | cons c' rest' =>
      obtain ⟨hk', hw', -⟩ := lookup_head h'
      exact absurd (hk'.symm.trans (hcells c'.1).symm) hw'
  | cons c rest ih =>
    cases mem' with
    | nil =>
      obtain ⟨hk, hw, -⟩ := lookup_head h
      exact absurd (hk.symm.trans (hcells c.1)) hw
    | cons c' rest' =>
      obtain ⟨k, w⟩ := c
      obtain ⟨k', w'⟩ := c'
      obtain ⟨rfl, rfl⟩ := head_eq h h' hcells
      have hrest := (wfFrom_cons h).2
      have hrest' := (wfFrom_cons h').2
      rw [ih hrest hrest' fun addr => ?_]
      obtain rfl | hne := eq_or_ne k addr
      · rw [lookup_below hrest (Nat.lt_succ_self k), lookup_below hrest' (Nat.lt_succ_self k)]
      · simpa [lookup, hne] using hcells addr

/-- Settles O10, by induction on the listed cells: the heads agree, and then the rests do. -/
theorem canonicalMemoriesAreDeterminedByTheirCells : Obligations.CanonicalMemoriesAreDeterminedByTheirCells := by
  unfold Obligations.CanonicalMemoriesAreDeterminedByTheirCells
  exact fun _ _ h h' hcells => Memory.eq_of_lookup_eq h h' hcells

/-! ## Reset, the codes, and the image load -/

/-- Settles O1: the register column is `reset_reg`, the memory column `reset_cell`, the rest is the table itself. -/
theorem resetHoldsTheSpecValues : Obligations.ResetHoldsTheSpecValues :=
  ⟨reset_reg, rfl, rfl, rfl, rfl, reset_cell⟩

/-- Settles O8: the tables of R30, R31 and R45, and FAULT_INFO as a number of 9 bits. -/
theorem statusAndFaultCodes : Obligations.StatusAndFaultCodes := by
  unfold Obligations.StatusAndFaultCodes
  refine ⟨rfl, rfl, rfl, rfl, rfl, rfl, fun _ => rfl, ?address, fun _ => rfl, ?index, ?outcome⟩
  case address =>
    intro addr h
    rw [FaultCause.info, BitVec.toNat_ofNat, Nat.mod_eq_of_lt h]
  case index =>
    intro index
    exact BitVec.toNat_setWidth_of_le (by decide)
  case outcome =>
    intro s
    cases h : s.status <;> simp [runOutcome, h]

/-- Settles O4: the load stores the image's bytes from address 0 upwards, and no other field is written. -/
theorem imageLoadWritesTheImage : Obligations.ImageLoadWritesTheImage := by
  unfold Obligations.ImageLoadWritesTheImage
  intro image s ho hw
  constructor
  · intro hlen
    have hfits : 0 + image.length ≤ memSize := (Nat.zero_add _).trans_le hlen
    refine ⟨_, loadImage_open ho hlen, fun k hk => ?_, fun addr haddr => ?_, rfl⟩
    · have := Memory.lookup_storeBytes_same hk hfits hw
      rwa [Nat.zero_add] at this
    · exact Memory.lookup_storeBytes_other s.mem image (.inr (by omega))
  · intro hlen
    exact loadImage_tooLong ho hlen

/-! ## Every step answers a next state; a step closes the load port; an ended machine stays -/

/-- Settles O27: a rejected decoding is a fault taken, and so is whatever an instruction raises. -/
theorem everyStepAnswersANextState : Obligations.EveryStepAnswersANextState := by
  unfold Obligations.EveryStepAnswersANextState
  intro m s
  by_cases hs : s.status = .running
  · cases hd : decodeWith m (fetchBytes s) with
    | error r => exact ⟨_, stepWith_error hs hd⟩
    | ok p =>
      rw [stepWith_ok hs hd]
      obtain ⟨t, ht, -⟩ | ⟨c, ht, -⟩ := exec_cases p.1 (afterFetch s)
      · exact ⟨t, ht⟩
      · exact ⟨_, ht⟩
  · exact ⟨s, stepWith_ended m hs⟩

/-- Settles O5: the fetch closes the port, and neither an instruction nor a fault opens it. -/
theorem firstStepClosesTheLoadPort : Obligations.FirstStepClosesTheLoadPort := by
  unfold Obligations.FirstStepClosesTheLoadPort
  intro m s t image hs h
  have hclosed : t.loadOpen = false := by
    obtain ⟨hne, -⟩ | ⟨-, r, -, rfl⟩ | ⟨-, i, rest, -, hc | ⟨c, -, rfl⟩⟩ := stepWith_inv h
    · exact absurd hs hne
    · exact afterOpcodeFetch_loadOpen s
    · exact hc.loadOpen.trans (afterFetch_loadOpen s)
    · exact afterFetch_loadOpen s
  exact ⟨hclosed, loadImage_closed image hclosed⟩

/-- Settles O6: the first match of the step. -/
theorem noStepUnlessRunning : Obligations.NoStepUnlessRunning := fun m _ h => stepWith_ended m h

/-- A run of one more step, from the state the first step answers. -/
theorem run_succ {M : Host.Core} {s t : M.State} (h : M.step s = .next t) (k : Nat) : M.run (k + 1) s = M.run k t := by
  simp only [Host.Core.run, h]

/-- Settles O7, by induction on the number of steps. -/
theorem endedMachineStaysAsItIs : Obligations.EndedMachineStaysAsItIs := by
  unfold Obligations.EndedMachineStaysAsItIs
  intro s h k
  induction k with
  | zero => rfl
  | succ k ih => exact (run_succ (M := core) (stepWith_ended _ h) k).trans ih

/-! ## Out along a run (R32) -/

/-- An instruction that completes leaves Out, or is PRN and appends one byte. -/
theorem Completed.out_cases {i : Instr} {s t : State} (h : Completed i s t) :
    t.out = s.out ∨ (i.op = .prn ∧ ∃ v, t.out = s.out ++ [v]) := by
  cases h with
  | prn => exact .inr ⟨rfl, _, rfl⟩
  | _ => exact .inl rfl

theorem stepWith_out {m : OpcodeMap} {s t : State} (h : stepWith m s = .next t) :
    ∃ added, t.out = s.out ++ added ∧ added.length ≤ 1 := by
  have same : t.out = s.out → ∃ added, t.out = s.out ++ added ∧ added.length ≤ 1 :=
    fun e => ⟨[], by rw [e, List.append_nil], Nat.zero_le 1⟩
  obtain ⟨-, rfl⟩ | ⟨-, r, -, rfl⟩ | ⟨-, i, rest, -, hc | ⟨c, -, rfl⟩⟩ := stepWith_inv h
  · exact same rfl
  · exact same (afterOpcodeFetch_out s)
  · obtain hout | ⟨-, v, hout⟩ := hc.out_cases
    · exact same (hout.trans (afterFetch_out s))
    · exact ⟨[v], by rw [hout, afterFetch_out], Nat.le_refl 1⟩
  · exact same (afterFetch_out s)

/-- Settles O33, by induction on the number of steps: each appends one byte at most. -/
theorem outOnlyGrowsAlongARun : Obligations.OutOnlyGrowsAlongARun := by
  unfold Obligations.OutOnlyGrowsAlongARun
  intro k
  induction k with
  | zero => exact fun s => ⟨s, rfl, [], (List.append_nil _).symm, Nat.le_refl 0⟩
  | succ k ih =>
    intro s
    obtain ⟨t, ht⟩ := everyStepAnswersANextState OpcodeMap.defaultMap s
    obtain ⟨first, hfirst, hone⟩ := stepWith_out ht
    obtain ⟨u, hu, added, hadded, hk⟩ := ih t
    refine ⟨u, (run_succ (M := core) ht k).trans hu, first ++ added, ?_, ?_⟩
    · rw [hadded, hfirst, List.append_assoc]
    · rw [List.length_append]
      omega

end Sys2Proof.Machine
end

section
/-! PROOFS. The statements of spec/40_sequencer.md and spec/60_exceptions.md about one step, and the whole-machine rules on
what a step writes. -/

namespace Sys2Proof.Machine

/-! ## Faults of the fetch -/

theorem Fetches.fetchedOpcode_eq {s : State} {ir : Byte} (h : Fetches s ir) : fetchedOpcode s = some ir :=
  (fetchedOpcode_inside h.inMemory).trans (congrArg some h.opcode)

/-- A fault of the fetch, as the whole answer of the step. -/
theorem FetchFault.step_faultTaken {m : OpcodeMap} {s : State} {fetched : Bool} {c : FaultCause}
    (h : FetchFault m s fetched c) (hm : m.Admissible) (hs : s.status = .running) :
    ∃ t, stepWith m s = .next t ∧ FaultTaken (fetchedOpcode s) c s t :=
  ⟨_, h.stepWith_eq hm hs, h.faultTaken hm⟩

/-- Settles O20: there is no byte to fetch, whatever the map. -/
theorem opcodeFetchPastTheTopFaults : Obligations.OpcodeFetchPastTheTopFaults := by
  unfold Obligations.OpcodeFetchPastTheTopFaults
  intro m s hs hpc
  have hnat : s.pc.toNat = 0x100 := congrArg BitVec.toNat hpc
  have hout : 0xFF < s.pc.toNat := by omega
  have hd : decodeWith m (fetchBytes s) = .error .noOpcode := by rw [fetchBytes_empty hout]; rfl
  have htaken := faultTaken_takeReject hd
  rw [fetchedOpcode_outside hout, rejectCause, hnat] at htaken
  exact ⟨_, stepWith_error hs hd, htaken⟩

/-- Settles O22: the missing operand byte is the one at 0x100. -/
theorem operandFetchPastTheTopFaults : Obligations.OperandFetchPastTheTopFaults := by
  unfold Obligations.OperandFetchPastTheTopFaults
  intro m s ir o hm hf hc hout
  have hfault : FetchFault m s true (.outOfRangeAddress 0x100) :=
    .operand hf.inMemory (hf.opcode ▸ hc) (hf.opcode ▸ hout)
  rw [← hf.fetchedOpcode_eq]
  exact hfault.step_faultTaken hm hf.running

/-- Settles O21: the verdict on a byte outside the map is that of its bit 5, and a faulted machine takes no step. -/
theorem illegalOpcodesAreFatal : Obligations.IllegalOpcodesAreFatal := by
  unfold Obligations.IllegalOpcodesAreFatal
  intro s ir hf
  have fatal : ∀ c, FetchFault OpcodeMap.defaultMap s true c →
      ∃ t, step s = .next t ∧ FaultTaken (some ir) c s t ∧ Terminal core t := by
    intro c hfault
    obtain ⟨t, ht, htaken⟩ := hfault.step_faultTaken defaultMapIsAdmissible hf.running
    rw [hf.fetchedOpcode_eq] at htaken
    exact ⟨t, ht, htaken, endedMachineStaysAsItIs t (by simp [htaken.status])⟩
  constructor
  · intro hbit hmem
    refine fatal _ (.named hf.inMemory ?_)
    rw [hf.opcode, classify_of_not_mem hmem, if_neg (ne_true_of_eq_false hbit)]
  · intro hbit hmem
    refine fatal _ (.alu hf.inMemory ?_)
    rw [hf.opcode, classify_of_not_mem hmem, if_pos hbit]

/-- Settles O23: rejected bytes and a raising instruction end in a fault taken, and an instruction that completes does not
fault. -/
theorem faultsArePrecise : Obligations.FaultsArePrecise := by
  unfold Obligations.FaultsArePrecise
  intro m s t hs h hfaulted
  obtain ⟨hne, -⟩ | ⟨-, r, hd, rfl⟩ | ⟨-, i, rest, hd, hc | ⟨c, -, rfl⟩⟩ := stepWith_inv h
  · exact absurd hs hne
  · exact ⟨_, _, faultTaken_takeReject hd, rfl⟩
  · exact absurd hfaulted (hc.not_faulted ((afterFetch_status s).trans hs))
  · exact ⟨_, _, faultTaken_afterFetch (pc_of_decode_fetch hd) c, rfl⟩

/-! ## A step that runs its instruction -/

/-- A latched operand is the byte fetched for it. -/
theorem afterFetch_operands {s : State} (hp : s.pc.toNat ≤ 0xFF)
    (hin : s.pc.toNat + operandCount (s.cell s.pc.toNat) ≤ 0xFF) :
    (1 ≤ operandCount (s.cell s.pc.toNat) → (afterFetch s).opA = s.cell (s.pc.toNat + 1)) ∧
    (2 ≤ operandCount (s.cell s.pc.toNat) → (afterFetch s).opB = s.cell (s.pc.toNat + 2)) := by
  have hsize : memSize = 256 := rfl
  simp only [afterFetch, fetchBytes_cons hp, latchOperands]
  constructor
  · intro hn
    rw [if_pos hn]
    exact readBytes_getD 2 (s.pc.toNat + 1) 0 _ s (by omega)
  · intro hn
    rw [if_pos hn]
    exact readBytes_getD 2 (s.pc.toNat + 1) 1 _ s (by omega)

/-- Settles O19: the fetch writes the transient registers and the load port only. -/
theorem stepRunsTheDecodedInstruction : Obligations.StepRunsTheDecodedInstruction := by
  unfold Obligations.StepRunsTheDecodedInstruction
  intro m s i rest hs hd
  have hp := pc_of_decode_fetch hd
  obtain ⟨o, a, b, -, -, hin, -, -⟩ := decode_fetch_inv hd
  obtain ⟨hA, hB⟩ := afterFetch_operands hp hin
  exact ⟨stepWith_ok hs hd, afterFetch_ir hp, hA, hB, afterFetch_loadOpen s, afterFetch_observe s, afterFetch_bt s⟩

/-- A step that can fetch its opcode takes a fault, or completes the instruction of that opcode. -/
theorem Fetches.step_cases {m : OpcodeMap} {s t : State} {ir : Byte} (hf : Fetches s ir) (hm : m.Admissible)
    (h : stepWith m s = .next t) :
    (∃ c, FaultTaken (some ir) c s t) ∨
    ∃ o, ir = o.byte m ∧ Fetched m s o ∧ Completed (fetchedInstr o s) (afterFetch s) t := by
  rw [← hf.fetchedOpcode_eq]
  cases stepped_of_stepWith hm h with
  | ended hne => exact absurd hf.running hne
  | fetchFault hs hfault => exact .inl ⟨_, hfault.faultTaken hm⟩
  | @completed o _ hs hfetched hc => exact .inr ⟨o, hf.opcode.symm.trans hfetched.opcode, hfetched, hc⟩
  | raised hs hfetched hr => exact .inl ⟨_, faultTaken_afterFetch hfetched.pc_le _⟩

/-- Settles O25: the PC update of an instruction that completes, read at the state after the fetch. -/
theorem pcAdvancesByTheOpcodeFields : Obligations.PcAdvancesByTheOpcodeFields := by
  unfold Obligations.PcAdvancesByTheOpcodeFields
  intro m s t ir hm hf h hstatus
  obtain ⟨c, htaken⟩ | ⟨o, rfl, hfetched, hc⟩ := hf.step_cases hm h
  · exact absurd htaken.status hstatus
  have hpc := Completed.pc_eq hm hc
  rw [afterFetch_pc] at hpc
  constructor
  · intro hset
    have hin := hfetched.inMemory
    have hsum : t.pc.toNat = s.pc.toNat + operandCount (o.byte m) + 1 := by
      rw [hpc, if_neg (ne_true_of_eq_false hset), toNat_incremented hin]
    exact ⟨hsum, by omega, (Completed.bt_eq_of_not_setsPc hm hc hset).trans (afterFetch_bt s)⟩
  · intro hset
    rw [hpc, if_pos hset]

/-- The step at an HLT byte: it needs no operand and raises nothing. -/
theorem stepWith_hlt {m : OpcodeMap} {s : State} (hm : m.Admissible) (hf : Fetches s m.hlt) :
    stepWith m s = .next { advancePc 0 (afterFetch s) with status := .halted } := by
  have hcount : operandCount (Op.hlt.byte m) = 0 := (hm.count .hlt).resolve_left nofun
  have hfetched : Fetched m s .hlt := ⟨hf.opcode, by rw [hcount]; exact hf.inMemory⟩
  rw [hfetched.stepWith_eq hm hf.running]
  exact execHlt_ok (afterFetch s)

/-- Settles O26: a step at HLT's byte halts, and no other instruction writes STATUS when it completes. -/
theorem onlyHltHalts : Obligations.OnlyHltHalts := by
  unfold Obligations.OnlyHltHalts
  intro m s t ir hm hf h
  constructor
  · intro hhalted
    obtain ⟨c, htaken⟩ | ⟨o, rfl, -, hc⟩ := hf.step_cases hm h
    · have := htaken.status.symm.trans hhalted
      cases this
    · obtain rfl | hne := eq_or_ne o .hlt
      · rfl
      · have hsame := hc.status_eq (by rwa [op_fetchedInstr])
        rw [hhalted, afterFetch_status, hf.running] at hsame
        cases hsame
  · rintro rfl
    rw [stepWith_hlt hm hf] at h
    cases h
    rfl

/-! ## What a step writes (R24, R32, R53) -/

/-- Settles O30: a fault writes no register, and an instruction that completes only those it is said to write. -/
theorem stepWritesOnlyTheListedRegisters : Obligations.StepWritesOnlyTheListedRegisters := by
  unfold Obligations.StepWritesOnlyTheListedRegisters
  intro m s t r ir hm hf h hne
  obtain ⟨c, htaken⟩ | ⟨o, rfl, -, hc⟩ := hf.step_cases hm h
  · exact absurd (htaken.regs r) hne
  have hwrites : WritesReg (fetchedInstr o s) r := by
    by_contra hw
    exact hne ((hc.reg_eq hw).trans (afterFetch_reg s r))
  cases o with
  | hlt | prn => exact hwrites.elim
  | ldi | add | sub | mul => exact .inl ⟨by simp [Op.byte, Op.instr, Instr.opcode], hwrites⟩
  | push | call | ret => exact .inr ⟨by simp [Op.byte, Op.instr, Instr.opcode], hwrites⟩
  | pop =>
    obtain hdest | hsp := hwrites
    · exact .inl ⟨by simp [Op.byte, Op.instr, Instr.opcode], hdest⟩
    · exact .inr ⟨by simp [Op.byte, Op.instr, Instr.opcode], hsp⟩

theorem pushSlot_afterFetch (s : State) : pushSlot (afterFetch s) = pushSlot s := by simp [pushSlot]

/-- Settles O31: a fault writes no cell, and an instruction that completes only the slot of a push or a call. -/
theorem stepWritesOnlyTheStackSlot : Obligations.StepWritesOnlyTheStackSlot := by
  unfold Obligations.StepWritesOnlyTheStackSlot
  intro m s t addr ir hm hf h hne
  obtain ⟨c, htaken⟩ | ⟨o, rfl, -, hc⟩ := hf.step_cases hm h
  · exact absurd (htaken.cells addr) hne
  have hwrites : WritesCell (fetchedInstr o s) (afterFetch s) addr := by
    by_contra hw
    exact hne ((hc.cell_eq hw).trans (afterFetch_cell s addr))
  obtain ⟨hop, haddr⟩ := hwrites
  rw [pushSlot_afterFetch] at haddr
  refine ⟨?_, haddr.trans (spDec_toNat _)⟩
  rw [op_fetchedInstr] at hop
  obtain rfl | rfl := hop
  · exact List.mem_cons_self
  · exact List.mem_cons_of_mem _ List.mem_cons_self

/-- Settles O32: a fault leaves Out alone, and so does every instruction that completes but PRN. -/
theorem onlyPrnAppendsToOut : Obligations.OnlyPrnAppendsToOut := by
  unfold Obligations.OnlyPrnAppendsToOut
  intro m s t ir hm hf h
  obtain ⟨c, htaken⟩ | ⟨o, rfl, -, hc⟩ := hf.step_cases hm h
  · exact .inl htaken.out
  have hout := hc.out_cases
  rw [op_fetchedInstr, afterFetch_out] at hout
  obtain hsame | ⟨rfl, hv⟩ := hout
  · exact .inl hsame
  · exact .inr ⟨rfl, hv⟩

end Sys2Proof.Machine
end

section
/-! PROOFS. The statement of spec/10_state.md section 7: what the host cannot observe changes nothing that it can. -/

namespace Sys2Proof.Machine

/-! ## Instructions (R34 to R36)

An instruction reads registers, memory, pc and Out; IR only when it faults, and a step's own fetch has set IR by then. -/

theorem Completed.exec_eq {i : Instr} {s t : State} (h : Completed i s t) : exec i s = .next t := by
  cases h with
  | hlt => exact execHlt_ok s
  | ldi imm s ha => exact execLdi_ok imm s ha
  | prn s ha => exact execPrn_ok s ha
  | push s ha => exact execPush_ok s ha
  | pop s ha => exact execPop_ok s ha
  | call s ha hp => exact execCall_ok s ha hp
  | ret => exact execRet_ok s
  | add s ha hb => exact execAdd_ok s ha hb
  | sub s ha hb => exact execSub_ok s ha hb
  | mul s ha hb => exact execMul_ok s ha hb

theorem Raises.exec_eq {i : Instr} {s : State} {c : FaultCause} (h : Raises i s c) :
    exec i s = .next (takeFault true c s) := by
  cases h with
  | ldi imm s ha => exact execLdi_fault imm s ha
  | prn s ha => exact execPrn_fault s ha
  | push s ha => exact execPush_fault s ha
  | pop s ha => exact execPop_fault s ha
  | call s ha => exact execCall_fault_a s ha
  | callReturn s ha hp => exact execCall_fault_pc s ha hp
  | addA b s ha => exact execAdd_fault_a b s ha
  | addB s ha hb => exact execAdd_fault_b s ha hb
  | subA b s ha => exact execSub_fault_a b s ha
  | subB s ha hb => exact execSub_fault_b s ha hb
  | mulA b s ha => exact execMul_fault_a b s ha
  | mulB s ha hb => exact execMul_fault_b s ha hb

/-- States the host cannot tell apart differ in the transient registers and the load port only. -/
theorem eq_of_observe_eq {s s' : State} (h : observe s = observe s') :
    s' = { s with ir := s'.ir, opA := s'.opA, opB := s'.opB, bt := s'.bt, loadOpen := s'.loadOpen } := by
  simp only [observe, State.faultRecord, Observation.mk.injEq, FaultRecord.mk.injEq] at h
  obtain ⟨hstatus, ⟨hkind, hpc', hvalid, hir, hinfo⟩, hregs, hpc, hmem, hout⟩ := h
  cases s
  cases s'
  subst hstatus hkind hpc' hvalid hir hinfo hregs hpc hmem hout
  rfl

/-- An instruction that completes at one of two such states completes at the other, and to the same observation. -/
theorem Completed.congr {i : Instr} {s s' t : State} (h : Completed i s t) (ho : observe s = observe s') :
    ∃ t', Completed i s' t' ∧ observe t = observe t' ∧ (s.bt = s'.bt → t.bt = t'.bt) := by
  rw [eq_of_observe_eq ho]
  cases h with
  | hlt => exact ⟨_, .hlt _, rfl, id⟩
  | ldi imm s ha => exact ⟨_, .ldi imm _ ha, rfl, id⟩
  | prn s ha => exact ⟨_, .prn _ ha, rfl, id⟩
  | push s ha => exact ⟨_, .push _ ha, rfl, id⟩
  | pop s ha => exact ⟨_, .pop _ ha, rfl, id⟩
  | call s ha hp => exact ⟨_, .call _ ha hp, rfl, fun _ => rfl⟩
  | ret => exact ⟨_, .ret _, rfl, fun _ => rfl⟩
  | add s ha hb => exact ⟨_, .add _ ha hb, rfl, id⟩
  | sub s ha hb => exact ⟨_, .sub _ ha hb, rfl, id⟩
  | mul s ha hb => exact ⟨_, .mul _ ha hb, rfl, id⟩

theorem Raises.congr {i : Instr} {s s' : State} {c : FaultCause} (h : Raises i s c) (ho : observe s = observe s') :
    Raises i s' c := by
  rw [eq_of_observe_eq ho]
  cases h with
  | ldi imm s ha => exact .ldi imm _ ha
  | prn s ha => exact .prn _ ha
  | push s ha => exact .push _ ha
  | pop s ha => exact .pop _ ha
  | call s ha => exact .call _ ha
  | callReturn s ha hp => exact .callReturn (s := { s with ir := _, opA := _, opB := _, bt := _, loadOpen := _ }) ha hp
  | addA b s ha => exact .addA b _ ha
  | addB s ha hb => exact .addB _ ha hb
  | subA b s ha => exact .subA b _ ha
  | subB s ha hb => exact .subB _ ha hb
  | mulA b s ha => exact .mulA b _ ha
  | mulB s ha hb => exact .mulB _ ha hb

/-! ## Steps -/

/-- A fault taken shows the state it was taken at, and IR if the opcode was fetched. -/
theorem observe_takeFault_congr {s s' : State} (ho : observe s = observe s') (fetched : Bool) (c : FaultCause)
    (hir : fetched = true → s.ir = s'.ir) : observe (takeFault fetched c s) = observe (takeFault fetched c s') := by
  rw [eq_of_observe_eq ho] at hir ⊢
  cases fetched with
  | false => rfl
  | true => simp only [observe, State.faultRecord, takeFault, if_true, hir rfl]

theorem exec_congr (i : Instr) {s s' : State} (ho : observe s = observe s') (hir : s.ir = s'.ir) :
    ∃ t t', exec i s = .next t ∧ exec i s' = .next t' ∧ observe t = observe t' := by
  obtain ⟨t, ht, hc⟩ | ⟨c, ht, hr⟩ := exec_cases i s
  · obtain ⟨t', hc', hobs, -⟩ := hc.congr ho
    exact ⟨t, t', ht, hc'.exec_eq, hobs⟩
  · exact ⟨_, _, ht, (hr.congr ho).exec_eq, observe_takeFault_congr ho true c fun _ => hir⟩

theorem readBytes_congr {s s' : State} (h : s.mem = s'.mem) (k addr : Nat) : readBytes k addr s = readBytes k addr s' := by
  induction k generalizing addr with
  | zero => rfl
  | succ k ih => simp only [readBytes, memRead, State.cell, h, ih]

theorem fetchBytes_congr {s s' : State} (ho : observe s = observe s') : fetchBytes s = fetchBytes s' := by
  have hpc : s.pc = s'.pc := congrArg Observation.pc ho
  rw [fetchBytes, fetchBytes, hpc]
  exact readBytes_congr (congrArg Observation.mem ho) _ _

/-- A step shows the same from states that show the same. -/
theorem stepWith_congr (m : OpcodeMap) {s s' : State} (ho : observe s = observe s') :
    ∃ t t', stepWith m s = .next t ∧ stepWith m s' = .next t' ∧ observe t = observe t' := by
  have hstatus : s.status = s'.status := congrArg Observation.status ho
  have hpc : s.pc = s'.pc := congrArg Observation.pc ho
  have hcell : ∀ addr, s.cell addr = s'.cell addr := fun addr => congrArg (fun v => v.mem.lookup addr) ho
  have hbytes := fetchBytes_congr ho
  by_cases hs : s.status = .running
  · have hs' : s'.status = .running := hstatus.symm.trans hs
    cases hd : decodeWith m (fetchBytes s) with
    | error r =>
      refine ⟨_, _, stepWith_error hs hd, stepWith_error hs' (hbytes ▸ hd), ?_⟩
      have hafter : observe (afterOpcodeFetch s) = observe (afterOpcodeFetch s') := by simpa using ho
      have hcause : rejectCause (afterOpcodeFetch s) r = rejectCause (afterOpcodeFetch s') r := by
        cases r <;> simp [rejectCause, hpc]
      rw [takeReject, takeReject, hcause]
      refine observe_takeFault_congr hafter _ _ fun hr => ?_
      have hp := (fetched_iff_of_decode_error hd).1 hr
      rw [afterOpcodeFetch_ir hp, afterOpcodeFetch_ir (hpc ▸ hp), hcell, hpc]
    | ok p =>
      have hp := pc_of_decode_fetch hd
      rw [stepWith_ok hs hd, stepWith_ok hs' (hbytes ▸ hd)]
      refine exec_congr p.1 (by simpa using ho) ?_
      rw [afterFetch_ir hp, afterFetch_ir (hpc ▸ hp), hcell, hpc]
  · exact ⟨s, s', stepWith_ended m hs, stepWith_ended m (hstatus ▸ hs), ho⟩

/-- Settles O29, by induction on the number of steps. -/
theorem transientRegistersAreNeverObserved : Obligations.TransientRegistersAreNeverObserved := by
  unfold Obligations.TransientRegistersAreNeverObserved
  intro k
  induction k with
  | zero => exact fun s₁ s₂ ho => ⟨s₁, s₂, rfl, rfl, ho⟩
  | succ k ih =>
    intro s₁ s₂ ho
    obtain ⟨t₁, t₂, h₁, h₂, hstep⟩ := stepWith_congr OpcodeMap.defaultMap ho
    obtain ⟨u₁, u₂, hu₁, hu₂, hrun⟩ := ih t₁ t₂ hstep
    exact ⟨u₁, u₂, (run_succ (M := core) h₁ k).trans hu₁, (run_succ (M := core) h₂ k).trans hu₂, hrun⟩

end Sys2Proof.Machine
end

section
/-! PROOFS. The step against the spec's own step(): spec/40_sequencer.md R110 and the fault order of spec/60_exceptions.md R217. -/

namespace Sys2Proof.Machine

open Sequencer

/-! ## The pseudocode's accessors are the model's -/

theorem x_eq_reg {a : Byte} (ha : a.toNat < 8) (s : State) : x s a = s.reg ⟨a.toNat, ha⟩ := by
  simp [x, State.reg, List.getD_eq_getElem?_getD, ha]

theorem x_seven (s : State) : x s 7 = s.reg sp := x_eq_reg seven_lt s

theorem put_eq_setReg {a : Byte} (ha : a.toNat < 8) (s : State) (v : Nat) :
    put s a v = s.setReg ⟨a.toNat, ha⟩ (trunc8 v) := by
  have hregs : s.regs.setIfInBounds a.toNat (trunc8 v) = s.regs.set a.toNat (trunc8 v) ha :=
    Vector.ext fun i hi => by rw [Vector.getElem_setIfInBounds, Vector.getElem_set]
  rw [put, hregs, State.setReg]

theorem putSp_eq_setReg (s : State) (v : Nat) : putSp s v = s.setReg sp (trunc8 v) := put_eq_setReg seven_lt s v

theorem trunc8_of_toNat (v : Byte) : trunc8 v.toNat = v := by
  rw [trunc8, BitVec.ofNat_toNat, BitVec.setWidth_eq]

theorem check_ok {a : Byte} (ha : a.toNat < 8) (next : Except FaultCause State) : check a next = next :=
  if_neg (Nat.not_lt.2 (Nat.le_of_lt_succ ha))

theorem check_error {a : Byte} (ha : 8 ≤ a.toNat) (next : Except FaultCause State) :
    check a next = .error (.registerIndexOutOfRange a) := if_pos ha

theorem putSp_decrement (s : State) : putSp s ((x s 7).toNat + 255) = pushSp s := by
  rw [putSp_eq_setReg, x_seven]
  rfl

theorem writeAtSp_pushSp (s : State) (v : Byte) : writeAtSp (pushSp s) v = pushed v s := by
  rw [writeAtSp, x_seven, pushSp_reg_sp]
  rfl

/-! ## The handlers -/

/-- Where an instruction completes, its handler answers the same state but for pc and STATUS, which the end of the step
writes. -/
theorem Completed.handler_eq {o : Op} {A B : Byte} {s t : State} (h : Completed (o.instr A B) s t) :
    ∃ u, handler o A B s.pc.toNat s = .ok u ∧ t = { u with pc := t.pc, status := t.status } ∧ u.status = s.status := by
  cases o with
  | hlt =>
    cases h
    exact ⟨_, rfl, rfl, rfl⟩
  | ldi =>
    cases h; next ha =>
    refine ⟨_, check_ok ha _, ?_, rfl⟩
    rw [put_eq_setReg ha, trunc8_of_toNat]
    rfl
  | prn =>
    cases h; next ha =>
    refine ⟨_, check_ok ha _, ?_, rfl⟩
    rw [x_eq_reg ha]
    rfl
  | push =>
    cases h; next ha =>
    refine ⟨_, check_ok ha _, ?_, rfl⟩
    rw [putSp_decrement, writeAtSp_pushSp, x_eq_reg ha]
    rfl
  | pop =>
    cases h; next ha =>
    refine ⟨_, check_ok ha _, ?_, rfl⟩
    rw [x_seven, put_eq_setReg ha, trunc8_of_toNat, x_seven, putSp_eq_setReg]
    rfl
  | call =>
    cases h; next ha hp =>
    refine ⟨_, (check_ok ha _).trans (if_neg (Nat.not_lt.2 hp)), ?_, rfl⟩
    rw [putSp_decrement, writeAtSp_pushSp, x_eq_reg ha]
    rfl
  | ret =>
    cases h
    refine ⟨_, rfl, ?_, rfl⟩
    rw [putSp_eq_setReg, x_seven, x_seven]
    rfl
  | add | sub | mul =>
    cases h; next ha hb =>
    refine ⟨_, (check_ok ha _).trans (check_ok hb _), ?_, rfl⟩
    rw [put_eq_setReg ha, x_eq_reg ha, x_eq_reg hb]
    rfl

/-- Where an instruction raises, its handler raises the same. -/
theorem Raises.handler_eq {o : Op} {A B : Byte} {s : State} {c : FaultCause} (h : Raises (o.instr A B) s c) :
    handler o A B s.pc.toNat s = .error c := by
  cases o with
  | hlt | ret => cases h
  | ldi | prn | push | pop =>
    cases h; next ha =>
    exact check_error ha _
  | call =>
    cases h with
    | call _ ha => exact check_error ha _
    | callReturn _ ha hp => exact (check_ok ha _).trans (if_pos hp)
  | add | sub | mul =>
    cases h
    · next ha => exact check_error ha _
    · next ha hb => exact (check_ok ha _).trans (check_error hb _)

/-! ## The end of the step (R118, R119) -/

/-- The end of R110 after a handler at `p`: the PC update by the opcode's fields, then HLT's signal. -/
def endStep (o : Op) (ir : Byte) (p : Nat) (u : State) : State :=
  let t := if setsPc ir then { u with pc := zext9 u.bt } else { u with pc := BitVec.ofNat 9 (p + operandCount ir + 1) }
  if halts o then { t with status := .halted } else t

theorem ofNat_incremented (pc : PcWord) (n : Nat) : BitVec.ofNat 9 (pc.toNat + n + 1) = pc + BitVec.ofNat 9 (n + 1) := by
  apply BitVec.eq_of_toNat_eq
  simp only [BitVec.toNat_ofNat, BitVec.toNat_add]
  omega

theorem endStep_eq (o : Op) (ir : Byte) (pc : PcWord) (u : State) :
    endStep o ir pc.toNat u = { u with
      pc := if setsPc ir then zext9 u.bt else pc + BitVec.ofNat 9 (operandCount ir + 1)
      status := if o = .hlt then .halted else u.status } := by
  rw [← ofNat_incremented]
  unfold endStep halts
  cases setsPc ir <;> cases o <;> rfl

/-- An instruction that completes is its handler and the end of the step. -/
theorem Completed.eq_endStep {m : OpcodeMap} (hm : m.Admissible) {o : Op} {A B : Byte} {s t : State}
    (h : Completed (o.instr A B) s t) :
    ∃ u, handler o A B s.pc.toNat s = .ok u ∧ t = endStep o (o.byte m) s.pc.toNat u := by
  obtain ⟨u, hu, ht, hstatus⟩ := h.handler_eq
  have hbt : t.bt = u.bt := by rw [ht]
  have hhlt : (o.instr A B = .hlt) = (o = .hlt) := by cases o <;> simp [Op.instr]
  refine ⟨u, hu, ?_⟩
  rw [endStep_eq, ht, h.pc_eq hm, h.status, hbt, hstatus]
  simp only [hhlt]

/-! ## seqStep at each kind of step -/

theorem seqStep_ended (m : OpcodeMap) {s : State} (hs : s.status ≠ .running) : seqStep m s = s := by
  unfold seqStep
  cases hstatus : s.status with
  | running => exact absurd hstatus hs
  | halted | faulted => rfl

/-- R110 after the handler's answer, at the opcode `ir`. -/
def afterHandler (o : Op) (ir : Byte) (s : State) : Except FaultCause State → State
  | .error c => raise (some ir) c s
  | .ok u => endStep o ir s.pc.toNat u

/-- At bytes that are an instruction, R110 runs its handler. -/
theorem seqStep_fetched {m : OpcodeMap} (hm : m.Admissible) {s : State} {o : Op} (hs : s.status = .running)
    (hf : Fetched m s o) :
    seqStep m s =
      afterHandler o (o.byte m) s (handler o (s.cell (s.pc.toNat + 1)) (s.cell (s.pc.toNat + 2)) s.pc.toNat s) := by
  have hin := hf.inMemory
  have hp : ¬s.pc.toNat > 0xFF := Nat.not_lt.2 hf.pc_le
  have hA : ¬(operandCount (o.byte m) ≥ 1 ∧ s.pc.toNat + 1 > 0xFF) := by omega
  have hB : ¬(operandCount (o.byte m) ≥ 2 ∧ s.pc.toNat + 2 > 0xFF) := by omega
  simp only [seqStep, hs, if_neg hp, hf.opcode, hm.classify_byte o, if_neg hA, if_neg hB]
  cases handler o (s.cell (s.pc.toNat + 1)) (s.cell (s.pc.toNat + 2)) s.pc.toNat s <;> rfl

/-- At any others, it raises the fault of the fetch. -/
theorem seqStep_fetchFault {m : OpcodeMap} (hm : m.Admissible) {s : State} {fetched : Bool} {c : FaultCause}
    (hs : s.status = .running) (hf : FetchFault m s fetched c) : seqStep m s = raise (fetchedOpcode s) c s := by
  cases hf with
  | opcode hp => simp only [seqStep, hs, gt_iff_lt, if_pos hp, fetchedOpcode_outside hp]
  | named hp hc => simp only [seqStep, hs, gt_iff_lt, if_neg (Nat.not_lt.2 hp), hc, fetchedOpcode_inside hp]
  | alu hp hc => simp only [seqStep, hs, gt_iff_lt, if_neg (Nat.not_lt.2 hp), hc, fetchedOpcode_inside hp]
  | @operand o hp hc hout =>
    have htwo : operandCount (s.cell s.pc.toNat) ≤ 2 := byte_of_classify hc ▸ (hm.fields o).1
    simp only [seqStep, hs, gt_iff_lt, if_neg (Nat.not_lt.2 hp), hc, fetchedOpcode_inside hp]
    obtain hA | hA := Nat.lt_or_ge 0xFF (s.pc.toNat + 1)
    · have hlast : s.pc.toNat + 1 = 0x100 := by omega
      rw [if_pos ⟨by omega, hA⟩, hlast]
    · have hlast : s.pc.toNat + 2 = 0x100 := by omega
      rw [if_neg (by omega), if_pos ⟨by omega, by omega⟩, hlast]

/-- The pseudocode's `raise` and the model's fault show the same. -/
theorem observe_takeFault_eq_raise {s u : State} (ho : observe u = observe s) (fetched : Bool) (c : FaultCause) :
    observe (takeFault fetched c u) = observe (raise (if fetched then some u.ir else none) c s) := by
  rw [eq_of_observe_eq ho]
  cases fetched <;> rfl

/-- The opcode byte that a fault of the fetch records. -/
theorem FetchFault.ir_eq {m : OpcodeMap} {s : State} {fetched : Bool} {c : FaultCause}
    (h : FetchFault m s fetched c) : (if fetched then some (afterOpcodeFetch s).ir else none) = fetchedOpcode s := by
  cases h with
  | opcode hp => exact (fetchedOpcode_outside hp).symm
  | named hp | alu hp | operand hp => rw [if_pos rfl, afterOpcodeFetch_ir hp, fetchedOpcode_inside hp]

/-- A step and R110 show the same and leave the same BT. -/
theorem Stepped.observe_eq {m : OpcodeMap} (hm : m.Admissible) {s t : State} (h : Stepped m s t) :
    observe t = observe (seqStep m s) ∧ t.bt = (seqStep m s).bt := by
  cases h with
  | ended hs =>
    rw [seqStep_ended m hs]
    exact ⟨rfl, rfl⟩
  | @fetchFault fetched c hs hf =>
    rw [seqStep_fetchFault hm hs hf, ← hf.ir_eq]
    exact ⟨observe_takeFault_eq_raise (afterOpcodeFetch_observe s) fetched c, afterOpcodeFetch_bt s⟩
  | @completed o t hs hf hc =>
    obtain ⟨t', hc', hobs, hbt⟩ := hc.congr (afterFetch_observe s)
    obtain ⟨u, hu, rfl⟩ := Completed.eq_endStep hm hc'
    rw [seqStep_fetched hm hs hf, hu]
    exact ⟨hobs, hbt (afterFetch_bt s)⟩
  | @raised o c hs hf hr =>
    have hhandler := (hr.congr (afterFetch_observe s)).handler_eq
    have hir : (afterFetch s).ir = o.byte m := (afterFetch_ir hf.pc_le).trans hf.opcode
    rw [seqStep_fetched hm hs hf, hhandler, afterHandler, ← hir]
    exact ⟨observe_takeFault_eq_raise (afterFetch_observe s) true c, afterFetch_bt s⟩

/-- Settles O28, by the cases of a step: the fault of the fetch, the handler's result, the handler's fault. -/
theorem stepIsTheSpecsSequencer : Obligations.StepIsTheSpecsSequencer := by
  unfold Obligations.StepIsTheSpecsSequencer
  intro m s hm
  obtain ⟨t, ht, hstep⟩ := stepWith_stepped hm s
  exact ⟨t, ht, hstep.observe_eq hm⟩

/-! ## The first fault of the order (R217) -/

/-- What a handler raised, if it did. -/
def causeOf : Except FaultCause State → Option FaultCause
  | .error c => some c
  | .ok _ => none

theorem causeOf_check (a : Byte) (next : Except FaultCause State) :
    causeOf (check a next) = if a.toNat > 7 then some (.registerIndexOutOfRange a) else causeOf next := by
  unfold check
  split <;> rfl

/-- Items 4 and 5 of the order are the handler's own checks, in its own order. -/
theorem handlerFault_eq (o : Op) (A B : Byte) (p : Nat) (s : State) :
    handlerFault o A B p = causeOf (handler o A B p s) := by
  unfold handlerFault handler
  cases o with
  | hlt | ret => rfl
  | ldi | prn | push | pop =>
    rw [causeOf_check]
    by_cases hA : A.toNat > 7
    · simp [registerOperands, hA]
    · simp [registerOperands, hA, callFault, causeOf]
  | call =>
    rw [causeOf_check]
    by_cases hA : A.toNat > 7
    · simp [registerOperands, hA]
    · by_cases hp : p + 2 > 0xFF <;> simp [registerOperands, hA, callFault, hp, causeOf]
  | add | sub | mul =>
    rw [causeOf_check, causeOf_check]
    by_cases hA : A.toNat > 7
    · simp [registerOperands, hA]
    · by_cases hB : B.toNat > 7 <;> simp [registerOperands, hA, hB, callFault, causeOf]

theorem firstFault_fetched {m : OpcodeMap} (hm : m.Admissible) {s : State} {o : Op} (hf : Fetched m s o) :
    firstFault m s = causeOf (handler o (s.cell (s.pc.toNat + 1)) (s.cell (s.pc.toNat + 2)) s.pc.toNat s) := by
  have hp : ¬s.pc.toNat > 0xFF := Nat.not_lt.2 hf.pc_le
  have hin : ¬s.pc.toNat + operandCount (o.byte m) > 0xFF := Nat.not_lt.2 hf.inMemory
  rw [← handlerFault_eq]
  simp only [firstFault, if_neg hp, hf.opcode, hm.classify_byte o, if_neg hin]

theorem FetchFault.firstFault_eq {m : OpcodeMap} {s : State} {fetched : Bool} {c : FaultCause}
    (h : FetchFault m s fetched c) : firstFault m s = some c := by
  cases h with
  | opcode hp => exact if_pos hp
  | named hp hc | alu hp hc => simp only [firstFault, gt_iff_lt, if_neg (Nat.not_lt.2 hp), hc]
  | operand hp hc hout => simp only [firstFault, gt_iff_lt, if_neg (Nat.not_lt.2 hp), hc, if_pos hout]

/-- What a step reports, by the first fault of the order. -/
def Reports (first : Option FaultCause) (t : State) : Prop :=
  (∀ c, first = some c → t.status = .faulted ∧ t.faultKind = c.kind ∧ t.faultInfo = c.info) ∧
  (first = none → t.status ≠ .faulted)

theorem reports_takeFault (fetched : Bool) (c : FaultCause) (s : State) : Reports (some c) (takeFault fetched c s) := by
  refine ⟨?_, nofun⟩
  rintro c' ⟨⟩
  exact ⟨rfl, rfl, rfl⟩

/-- Settles O24: the cause a step takes is the first of the order, and a step that takes none has no first fault. -/
theorem stepReportsTheFirstFault : Obligations.StepReportsTheFirstFault := by
  unfold Obligations.StepReportsTheFirstFault
  intro m s hm hs
  obtain ⟨t, ht, hstep⟩ := stepWith_stepped hm s
  suffices h : Reports (firstFault m s) t from ⟨t, ht, h⟩
  cases hstep with
  | ended hne => exact absurd hs hne
  | fetchFault _ hf =>
    rw [hf.firstFault_eq]
    exact reports_takeFault _ _ _
  | completed _ hf hc =>
    obtain ⟨t', hc', -, -⟩ := hc.congr (afterFetch_observe s)
    obtain ⟨u, hu, -⟩ := hc'.handler_eq
    rw [firstFault_fetched hm hf, hu]
    exact ⟨nofun, fun _ => hc.not_faulted ((afterFetch_status s).trans hs)⟩
  | raised _ hf hr =>
    rw [firstFault_fetched hm hf, (hr.congr (afterFetch_observe s)).handler_eq]
    exact reports_takeFault _ _ _

end Sys2Proof.Machine
end

section
/-! PROOFS. The statements about single instructions: spec/41_alu.md, spec/42_register_and_io.md, spec/43_stack_and_call.md. -/

namespace Sys2Proof.Machine

/-! ## The ALU (R140 to R144) -/

/-- A completed write of one register and the incrementer. -/
theorem frame_setReg (n : Nat) (r : Fin 8) (v : Byte) (s : State) : Frame [r] [] s (advancePc n (s.setReg r v)) where
  regs _ hq := reg_setReg_other v s (List.ne_of_not_mem_cons hq)
  cells _ _ := rfl
  record := rfl
  latches := ⟨rfl, rfl, rfl, rfl⟩

/-- The three operations that the ALU executes (R141). -/
def IsAlu (o : Op) : Prop := o = .add ∨ o = .sub ∨ o = .mul

theorem IsAlu.hasFields {o : Op} (ho : IsAlu o) {m : OpcodeMap} (hm : m.Admissible) :
    HasFields (o.byte m) 2 true false := by
  obtain ⟨-, hset, halu⟩ := hm.fields o
  have hcount := hm.count o
  obtain rfl | rfl | rfl := ho <;>
    exact ⟨hcount.resolve_left nofun, halu.2 (by decide), Bool.eq_false_iff.2 (mt hset.1 (by decide))⟩

theorem IsAlu.encodeWith_eq {o : Op} (ho : IsAlu o) (m : OpcodeMap) (a b : Byte) :
    encodeWith m (o.instr a b) = [o.byte m, a, b] := by
  obtain rfl | rfl | rfl := ho <;> rfl

/-- The rule of an ALU operation, from what it computes: all three share the contract of R140. -/
theorem IsAlu.rule {o : Op} (ho : IsAlu o) {f : Byte → Byte → Byte} {result : Nat → Nat → Nat}
    (hexec : ∀ a b s, exec (o.instr a b) s = complete s (aluOp f a b s))
    (hresult : ∀ x y, (f x y).toNat = result x.toNat y.toNat % 256) : AluRule o.instr (fun m => o.byte m) result := by
  refine ⟨fun m a b hm => ⟨ho.hasFields hm, ho.encodeWith_eq m a b⟩, ?completes, ?indexA, ?indexB, ?fetch⟩
  case completes =>
    intro a b s ha hb
    have hanswer := (hexec a b s).trans (congrArg (complete s) (aluOp_ok f s ha hb))
    refine ⟨_, hanswer, ?_, rfl, frame_setReg 2 _ _ s, rfl, rfl, rfl⟩
    rw [advancePc_reg, reg_setReg_same, hresult]
  case indexA =>
    intro a b s ha
    exact ⟨_, (hexec a b s).trans (congrArg (complete s) (aluOp_error_a f b s ha)), faultTaken_exec _ s⟩
  case indexB =>
    intro a b s ha hb
    exact ⟨_, (hexec a b s).trans (congrArg (complete s) (aluOp_error_b f s ha hb)), faultTaken_exec _ s⟩
  case fetch =>
    intro m s hm hf hpc
    have hcount : operandCount (o.byte m) = 2 := (ho.hasFields hm).1
    exact operandFetchPastTheTopFaults m s (o.byte m) o hm hf (hm.classify_byte o) (by omega)

/-- Settles O39: ADD is the ALU's rule with `aluAdd`. -/
theorem addWritesTheSum : Obligations.AddWritesTheSum :=
  ⟨rfl, IsAlu.rule (o := .add) (.inl rfl) (fun _ _ _ => rfl) aluAdd_toNat⟩

/-- Settles O40: SUB is the ALU's rule with `aluSub`. -/
theorem subWritesTheDifference : Obligations.SubWritesTheDifference :=
  ⟨rfl, IsAlu.rule (o := .sub) (.inr (.inl rfl)) (fun _ _ _ => rfl) aluSub_toNat⟩

/-- Settles O41: MUL is the ALU's rule with `aluMul`. -/
theorem mulWritesTheLowByteOfTheProduct : Obligations.MulWritesTheLowByteOfTheProduct :=
  ⟨rfl, IsAlu.rule (o := .mul) (.inr (.inr rfl)) (fun _ _ _ => rfl) aluMul_toNat⟩

/-! The ALU's results are the arithmetic of the 8-bit word. -/

theorem aluAdd_eq (x y : Byte) : aluAdd x y = x + y := BitVec.eq_of_toNat_eq (by rw [aluAdd_toNat, BitVec.toNat_add])

theorem aluSub_eq (x y : Byte) : aluSub x y = x - y := by
  have := y.isLt
  apply BitVec.eq_of_toNat_eq
  rw [aluSub_toNat, BitVec.toNat_sub]
  omega

theorem aluMul_eq (x y : Byte) : aluMul x y = x * y := BitVec.eq_of_toNat_eq (by rw [aluMul_toNat, BitVec.toNat_mul])

/-- Settles O42: the results are the sum, difference and product of 8-bit words. -/
theorem aluResultsAreAlsoTheSignedResults : Obligations.AluResultsAreAlsoTheSignedResults := by
  unfold Obligations.AluResultsAreAlsoTheSignedResults
  intro x y
  rw [aluAdd_eq, aluSub_eq, aluMul_eq]
  exact ⟨BitVec.toInt_add x y, BitVec.toInt_sub, BitVec.toInt_mul x y⟩

/-! ## HLT, LDI and PRN (R160 to R162) -/

/-- Settles O43: HLT's one result, and at an HLT byte the fetch needs no operand. -/
theorem hltHaltsAfterThePcUpdate : Obligations.HltHaltsAfterThePcUpdate := by
  unfold Obligations.HltHaltsAfterThePcUpdate
  constructor
  · intro s
    exact ⟨_, execHlt_ok s, rfl, rfl, (Completed.hlt s).frame nofun nofun, rfl, rfl⟩
  · intro m s hm hf
    refine ⟨_, stepWith_hlt hm hf, rfl, ?_⟩
    have hp := hf.inMemory
    exact (advancePc_toNat 0 (afterFetch s) (by rw [afterFetch_pc]; omega)).trans (by rw [afterFetch_pc])

/-- Settles O44: the index decides between the write of one register and the fault. -/
theorem ldiLoadsTheImmediate : Obligations.LdiLoadsTheImmediate := by
  unfold Obligations.LdiLoadsTheImmediate
  constructor
  · intro a imm s ha
    exact ⟨_, execLdi_ok imm s ha, reg_setReg_same _ imm s, rfl, frame_setReg 2 _ imm s, rfl, rfl, rfl⟩
  · intro a imm s ha
    exact ⟨_, execLdi_fault imm s ha, faultTaken_exec _ s⟩

/-- Settles O45: the index decides between the output and the fault. -/
theorem prnAppendsTheRegister : Obligations.PrnAppendsTheRegister := by
  unfold Obligations.PrnAppendsTheRegister
  constructor
  · intro a s ha
    exact ⟨_, execPrn_ok s ha, rfl, rfl, (Completed.prn s ha).frame nofun nofun, rfl, rfl⟩
  · intro a s ha
    exact ⟨_, execPrn_fault s ha, faultTaken_exec _ s⟩

/-! ## PUSH, POP, CALL and RET (R180 to R183) -/

/-- The register an operand names after the decrement of SP: only operand 7 sees it. -/
theorem pushSp_reg_operand {a : Byte} (ha : a.toNat < 8) (s : State) :
    (pushSp s).reg ⟨a.toNat, ha⟩ = if a = 7 then spDec (s.reg sp) else s.reg ⟨a.toNat, ha⟩ := by
  split
  · next h =>
    subst h
    exact pushSp_reg_sp s
  · next h => exact reg_setReg_other _ s (register_ne_sp ha h)

theorem mem_singleton_of_writesCell {i : Instr} {s : State} (addr : Nat) (h : WritesCell i s addr) :
    addr ∈ [pushSlot s] := List.mem_singleton.2 h.2

/-- The return address that a CALL stores fits its byte. -/
theorem pushed_returnAddress {s : State} (hw : s.mem.wf = true) (hp : s.pc.toNat + 2 ≤ 0xFF) :
    ((pushed (trunc8 (s.pc.toNat + 2)) s).cell ((pushed (trunc8 (s.pc.toNat + 2)) s).reg sp).toNat).toNat =
      s.pc.toNat + 2 := by
  rw [pushed_cell_sp _ hw, trunc8_toNat, Nat.mod_eq_of_lt (Nat.lt_succ_of_le hp)]

/-- Settles O46: the slot is where SP points afterwards, and the byte in it was read after the decrement. -/
theorem pushStoresTheRegister : Obligations.PushStoresTheRegister := by
  unfold Obligations.PushStoresTheRegister
  constructor
  · intro a s ha hw
    have hframe := (Completed.push s ha).frame (regs := [sp]) (fun _ h => List.mem_singleton.2 h)
      mem_singleton_of_writesCell
    refine ⟨_, execPush_ok s ha, ?_, ?_, rfl, hframe, rfl, rfl, rfl⟩
    · rw [advancePc_reg, pushed_reg, pushSp_reg_sp, spDec_toNat]
    · rw [advancePc_cell, advancePc_reg, pushed_cell_sp _ hw, pushSp_reg_operand, pushed_reg, pushSp_reg_sp]
  · intro a s ha
    exact ⟨_, execPush_fault s ha, faultTaken_exec _ s⟩

/-- Settles O47: SP is incremented after the write of the destination, so R7 ends one above the popped byte. -/
theorem popLoadsTheRegister : Obligations.PopLoadsTheRegister := by
  unfold Obligations.PopLoadsTheRegister
  constructor
  · intro a s ha
    have hregs : ∀ r, WritesReg (.pop a) r → r ∈ [⟨a.toNat, ha⟩, sp] := fun r h => by
      simpa [Fin.ext_iff] using h.imp_right (congrArg Fin.val)
    have hframe := (Completed.pop s ha).frame (cells := []) hregs fun _ h => h.1.elim nofun nofun
    refine ⟨_, execPop_ok s ha, ?_, ?_, rfl, hframe, rfl, rfl, rfl⟩
    · intro h7
      have hne := register_ne_sp ha h7
      rw [advancePc_reg, advancePc_reg, reg_setReg_other _ _ hne, reg_setReg_same, reg_setReg_same,
        reg_setReg_other _ _ hne.symm, spInc_toNat]
      exact ⟨rfl, rfl⟩
    · rintro rfl
      rw [advancePc_reg, reg_setReg_same, spInc_toNat]
      exact congrArg (fun v => (BitVec.toNat v + 1) % 256) (reg_setReg_same sp _ s)
  · intro a s ha
    exact ⟨_, execPop_fault s ha, faultTaken_exec _ s⟩

/-- Settles O48: the index is checked first, then the return address, then both are used. -/
theorem callStoresTheReturnAddress : Obligations.CallStoresTheReturnAddress := by
  unfold Obligations.CallStoresTheReturnAddress
  refine ⟨?completes, ?index, ?returnAddress⟩
  case completes =>
    intro a s ha hw hp
    have hframe := (Completed.call s ha hp).frame (regs := [sp]) (fun _ h => List.mem_singleton.2 h)
      mem_singleton_of_writesCell
    refine ⟨_, execCall_ok s ha hp, ?_, pushed_returnAddress hw hp, ?_, zext9_toNat _, hframe, rfl, rfl⟩
    · rw [branchTo_reg, pushed_reg, pushSp_reg_sp, spDec_toNat]
    · rw [branchTo_bt, pushSp_reg_operand, branchTo_reg, pushed_reg, pushSp_reg_sp]
  case index =>
    intro a s ha
    exact ⟨_, execCall_fault_a s ha, faultTaken_exec _ s⟩
  case returnAddress =>
    intro a s ha hp
    exact ⟨_, execCall_fault_pc s ha hp, faultTaken_exec _ s⟩

/-- Settles O49: RET reads the cell at SP, which is inside the memory. -/
theorem retPopsThePc : Obligations.RetPopsThePc := by
  unfold Obligations.RetPopsThePc
  intro s
  have hframe := (Completed.ret s).frame (regs := [sp]) (cells := []) (fun _ h => List.mem_singleton.2 h)
    (fun _ h => h.1.elim nofun nofun)
  refine ⟨_, execRet_ok s, rfl, zext9_toNat _, ?_, hframe, rfl, rfl⟩
  rw [branchTo_reg, reg_setReg_same, spInc_toNat]

/-! ## The stack discipline (R184) -/

/-- A POP into a register that holds the popped byte already changes no register but SP. -/
theorem reg_pop_same {t : State} {r : Fin 8} (h : t.cell (t.reg sp).toNat = t.reg r) (q : Fin 8) :
    ((t.setReg r (t.cell (t.reg sp).toNat)).setReg sp
      (spInc ((t.setReg r (t.cell (t.reg sp).toNat)).reg sp))).reg q = if q = sp then spInc (t.reg sp) else t.reg q := by
  have hself : ∀ q, (t.setReg r (t.reg r)).reg q = t.reg q := by
    intro q
    rw [reg_setReg]
    split
    · next e => rw [e]
    · rfl
  rw [h, reg_setReg, hself, hself]

/-- Settles O51: the popped byte is the one pushed, which its register still holds, R7 in its decremented value too. -/
theorem pushThenPopRestoresEveryRegister : Obligations.PushThenPopRestoresEveryRegister := by
  unfold Obligations.PushThenPopRestoresEveryRegister
  intro a s ha hw
  refine ⟨_, _, execPush_ok s ha, execPop_ok _ ha, fun r => ?_, ?_⟩
  · rw [advancePc_reg, reg_pop_same (pushed_cell_sp _ hw)]
    split
    · next h => rw [h, advancePc_reg, pushed_reg, pushSp_reg_sp, spInc_spDec]
    · next h => exact reg_setReg_other _ s h
  · exact BitVec.add_assoc s.pc 2 2

/-- What a CALL leaves on the stack: the return address at the decremented SP, every other cell as it was. -/
theorem exec_call_stack {a : Byte} {s : State} (ha : a.toNat < 8) (hw : s.mem.wf = true) (hp : s.pc.toNat + 2 ≤ 0xFF) :
    ∃ t, exec (.call a) s = .next t ∧ t.reg sp = spDec (s.reg sp) ∧ (t.cell (t.reg sp).toNat).toNat = s.pc.toNat + 2 ∧
      ∀ addr, addr ≠ (t.reg sp).toNat → t.cell addr = s.cell addr :=
  ⟨_, execCall_ok s ha hp, pushSp_reg_sp s, pushed_returnAddress hw hp, fun _ => pushed_cell_other _ s⟩

/-- A RET where SP is a decremented `b` resumes at the address in that cell and leaves `b` in SP. -/
theorem exec_ret_stack {u : State} {b : Byte} (hsp : u.reg sp = spDec b) :
    ∃ v, exec .ret u = .next v ∧ v.pc.toNat = (u.cell (u.reg sp).toNat).toNat ∧ v.reg sp = b := by
  refine ⟨_, execRet_ok u, zext9_toNat _, ?_⟩
  rw [branchTo_reg, reg_setReg_same, hsp, spInc_spDec]

theorem spDec_ne (v : Byte) : v.toNat ≠ (spDec v).toNat := by
  have := v.isLt
  rw [spDec_toNat]
  omega

/-- Settles O52: the RET reads the cell that the CALL wrote, at the SP it left. -/
theorem retResumesAfterTheCall : Obligations.RetResumesAfterTheCall := by
  unfold Obligations.RetResumesAfterTheCall
  intro a s ha hw hp
  obtain ⟨t, ht, hsp, hback, -⟩ := exec_call_stack ha hw hp
  refine ⟨t, ht, fun u husp hucell => ?_⟩
  obtain ⟨v, hv, hvpc, hvsp⟩ := exec_ret_stack (husp.trans hsp)
  exact ⟨v, hv, by rw [hvpc, hucell, hback], hvsp⟩

/-- Settles O53: the inner CALL writes below the outer return address, so the second RET finds it. -/
theorem nestedCallsReturnInLifoOrder : Obligations.NestedCallsReturnInLifoOrder := by
  unfold Obligations.NestedCallsReturnInLifoOrder
  intro a b s ha hb hw hp
  obtain ⟨t, ht, hsp, hback, -⟩ := exec_call_stack ha hw hp
  refine ⟨t, ht, fun s' hw' hp' hsp' hcell' => ?_⟩
  obtain ⟨t', ht', htsp', hback', hother⟩ := exec_call_stack hb hw' hp'
  refine ⟨t', ht', fun u husp hucell => ?_⟩
  obtain ⟨v, hv, hvpc, hvsp⟩ := exec_ret_stack (husp.trans htsp')
  refine ⟨v, hv, by rw [hvpc, husp, hucell, hback'], fun u' husp' hucell' => ?_⟩
  have houter : t'.cell (v.reg sp).toNat = t.cell (t.reg sp).toNat := by
    rw [hother, hvsp, hsp', hcell']
    rw [hvsp, htsp']
    exact spDec_ne _
  obtain ⟨v', hv', hvpc', hvsp'⟩ := exec_ret_stack (husp'.trans (hvsp.trans (hsp'.trans hsp)))
  exact ⟨v', hv', by rw [hvpc', husp', hucell', houter, hback], hvsp'⟩

/-! ## The pushed byte as the next opcode (R57, R64) -/

/-- The first byte a step fetches is the cell at pc. -/
theorem fetchBytes_head {u : State} (hp : u.pc.toNat ≤ 0xFF) : (fetchBytes u).head? = some (u.cell u.pc.toNat) := by
  rw [fetchBytes_cons hp, List.head?_cons]

/-- Settles O34: the operand is the byte fetched before the write, and the slot holds what was pushed. -/
theorem pushedByteIsFetchedNext : Obligations.PushedByteIsFetchedNext := by
  unfold Obligations.PushedByteIsFetchedNext
  intro m s a ha hm hw hf hp hoperand
  have hcount : operandCount (Op.push.byte m) = 1 := (hm.count .push).resolve_left nofun
  have hfetched : Fetched m s .push := ⟨hf.opcode, by rwa [hcount]⟩
  have hinstr : fetchedInstr .push s = .push a := congrArg Instr.push hoperand
  have hstep : stepWith m s = exec (.push a) (afterFetch s) := hinstr ▸ hfetched.stepWith_eq hm hf.running
  have hvalue : (pushSp (afterFetch s)).reg ⟨a.toNat, ha⟩ =
      if a = 7 then spDec (s.reg sp) else s.reg ⟨a.toNat, ha⟩ := by
    rw [pushSp_reg_operand, afterFetch_reg, afterFetch_reg]
  refine ⟨_, hstep.trans (execPush_ok (afterFetch s) ha), fun u hmem hpc => ?_⟩
  rw [fetchBytes_head (hpc ▸ Nat.le_of_lt_succ (pushSlot_lt s)), hpc, State.cell, hmem, ← hvalue]
  refine congrArg some ?_
  have hslot := pushed_cell_sp ((pushSp (afterFetch s)).reg ⟨a.toNat, ha⟩) (s := afterFetch s) (by rwa [afterFetch_mem])
  rwa [pushed_sp_eq_pushSlot, pushSlot_afterFetch] at hslot

end Sys2Proof.Machine
end
